-- ==== Sys2Proof/Word.lean ====
section
/-! DEFINITION. The widths of the interface: the values the CORE unit takes and gives as whole bit vectors (rules R8, R9, R11, R44). -/

namespace Sys2Proof

/-- A 256-bit operand slot or result: `W` of rule R8. Bit `i` has weight `2^i` (rules R11, R44). -/
abbrev Word := BitVec 256

/-- The 16-bit command word `CMD` (rules R9, R60). -/
abbrev CmdWord := BitVec 16

/-- The 4-bit `STATUS` code of a response (rules R9, R22). -/
abbrev StatusCode := BitVec 4

end Sys2Proof
end

