-- ==== Sys2Proof/Config.lean ====
section
/-! DEFINITION. The constants the source fixes (rule R8), the parameters the spec leaves OPEN (rule R9), and the free values
(92_eei_decisions.md D11, D20; 93_implementation_defined.md U1, U10-U12). -/

namespace Sys2Proof.Config

/-- `MAX`, the maximum 256-bit value (rule R8). -/
abbrev maxU256 : Nat := 2 ^ 256 - 1

/-- The maximum Liquidity, `2^128 - 1` (rules R8, R120). -/
abbrev maxU128 : Nat := 2 ^ 128 - 1

/-- `MAX_U160`, the bound on a computed sqrt price and on a token1 amount that takes the direct path (rule R8). -/
abbrev maxU160 : Nat := 2 ^ 160 - 1

/-- `Q96`, the scale of a Q64.96 price (rule R8). -/
abbrev q96 : Nat := 2 ^ 96

/-- `NR_ITER`, the Newton-Raphson iterations of the reference multiply-divide (rules R8, R110). -/
abbrev newtonIterations : Nat := 6

/-- Free value: `MAX_INFLIGHT` less one. Rule R9 leaves `MAX_INFLIGHT` OPEN, any value of at least 1 (log entry 7). -/
opaque maxInflightBeyondOne : Nat

/-- `MAX_INFLIGHT >= 1` (rule R9). Nothing a step does depends on it; only the acceptance of a request reads it. -/
def maxInflight : Nat := maxInflightBeyondOne + 1

/-- Free value: `LAT(op, operands)` less one. Rules R9 and R188 leave the latency OPEN, any number of cycles of at least 1 (log entry 8). -/
opaque latencyBeyondOne : CmdWord → Word → Word → Word → Nat

/-- `LAT >= 1` (rules R9, R188). The model has no time and no definition reads this parameter. -/
def latency (cmd : CmdWord) (a b c : Word) : Nat := latencyBeyondOne cmd a b c + 1

/-- Free value: the `R` of the `k`-th response with status `UnsafeDivByZero`, any 256-bit value, drawn per command
(rules R91, R163; U1; log entry 5). -/
opaque freeResult : Nat → Word

/-- Free value: which in-flight request's requester is served next, where several requesters wait.
The spec promises no order between requesters (rules R48, R187; U12; log entry 6). -/
opaque freePick : Nat → Nat

end Sys2Proof.Config
end

