-- ==== Sys2Proof/Syntax.lean ====
section
/-! DEFINITION. The command set `CORE-CMD v1`: one constructor for each row of spec/opcode_table.json, and the request that carries a command. -/

namespace Sys2Proof

/-- The ten legal commands (rule R64). A command word has no operand fields: operands travel in the slots of the request
(rule R66), so no constructor has an argument. `Rem` is `DIR = 0`, `Add` is `DIR = 1` (rule R62). -/
inductive Instr where
  | msb
  | lsb
  | udivru
  | muldiv
  | muldivru
  | adddelta
  | sqrt0Rem
  | sqrt0Add
  | sqrt1Rem
  | sqrt1Add
  deriving DecidableEq, Repr

/-- A request: the command word and the three operand slots (rule R21). -/
structure Request where
  cmd : CmdWord
  a : Word
  b : Word
  c : Word
  deriving DecidableEq, Repr

end Sys2Proof
end

