-- ==== Sys2Proof/Machine/State.lean ====
section
/-! DEFINITION. The state: the requests in flight, the request being served, the responses not yet taken, and the model's two counters of free values.
The CORE unit itself holds no architectural state (rule R20): between commands nothing of a command remains but its response. -/

namespace Sys2Proof.Machine

/-- The nine errors of the source (rules R160, R161): normal outcomes of a legal command, status codes 1 to 9. -/
inductive Error where
  | zeroHasNoBit
  | divisionByZero
  | resultOverflow
  | resultIsMax
  | productDivAmount
  | priceOverflow
  | priceUnderflow
  | overflow
  | underflow
  deriving DecidableEq, Repr

/-- The three faults the spec adds for requests the source gives no meaning (rules R160, R162). The UNIT answers each with a response,
so `step` goes on to a next state; the HOST's run is what a fault fails (rule R162): `Delivery.failed`, `hostStep` and `HostState.outcome`
answer it. Safe: a failed run lets no claim use the result. -/
inductive Fault where
  /-- Code 12, raised by `UDIVRU` with `y = 0` (rule R91). Safe: its `R` is a free value. -/
  | unsafeDivByZero
  /-- Code 13, raised by `ADDDELTA`, `SQRT0` and `SQRT1` for a 128-bit operand slot with a high bit set (rule R68). Safe. -/
  | illegalOperand
  /-- Code 15, raised for an illegal command word (rules R65, R70). Safe. -/
  | illegalCommand
  deriving DecidableEq, Repr

/-- Why an instruction is refused. Every instruction of the table has its meaning, so no arm of `exec` raises this. -/
inductive Refusal where
  /-- Raised by an arm of `exec` whose instruction has no meaning yet; none is left. Safe. -/
  | notModelled (mnemonic : String)
  deriving DecidableEq, Repr

/-- What `raise E` of the pseudocode raises (rule R13): a status that is not `OK`. -/
inductive Raise where
  | error (e : Error)
  | fault (f : Fault)
  deriving DecidableEq, Repr

/-- How a pseudocode routine ends (rule R13): `return r` with an exact integer, or `raise E`. -/
inductive Answer where
  | ret (v : Nat)
  | raise (e : Raise)
  deriving DecidableEq, Repr

/-- The `STATUS` of a response (rules R22, R160). The reserved codes 10, 11 and 14 have no constructor: they are never produced (rule R164). -/
inductive Status where
  | ok
  | error (e : Error)
  | fault (f : Fault)
  deriving DecidableEq, Repr

/-- A response: its status and its result (rule R22). -/
structure Response where
  status : Status
  r : Word
  deriving DecidableEq, Repr

/-- A name for a requester. The unit has no identifiers (rule R175); the model tags each request so that its response goes back
to its requester (log entry 3). -/
abbrev Requester := Nat

/-- A request the unit has accepted, with its requester (rules R175, R187). -/
structure InFlight where
  who : Requester
  req : Request
  deriving DecidableEq, Repr

/-- A response with the requester it goes to (rule R175). -/
structure Addressed where
  who : Requester
  rsp : Response
  deriving DecidableEq, Repr

/-- The machine at transaction level (rule R7). -/
structure State where
  /-- Requests accepted and not yet answered, oldest first (rules R9, R180, R187). -/
  inflight : List InFlight
  /-- The request port: the request whose command the unit is executing (rule R21), `none` between commands (rule R20). -/
  serving : Option InFlight
  /-- The response channel: responses given and not yet taken by their requesters, oldest first (rules R22, R23, R187). -/
  responses : List Addressed
  /-- The model's own counter of free results drawn (log entry 5). -/
  draws : Nat
  /-- The model's own counter of free choices between requesters (log entry 6). -/
  picks : Nat
  deriving DecidableEq, Repr

/-- What a requester gets when it takes its next response. A fault response is no response its program may go on with: it is the failed run
of that program (rules R91, R162), and its `R` is not handed over (rule R163). -/
inductive Delivery where
  /-- No response is pending for the requester. -/
  | nothing
  /-- A response with the status `OK` or an error. -/
  | response (rsp : Response) (t : State)
  /-- A fault response: the requester's run is a failed run. -/
  | failed (f : Fault) (t : State)
  deriving DecidableEq, Repr

/-- The machine right after reset: nothing in flight and no response pending (rules R31, R180). The unit has no other state to reset;
the two counters are the model's own and start at 0 (log entries 5 and 6). -/
def State.reset : State :=
  { inflight := [], serving := none, responses := [], draws := 0, picks := 0 }

end Sys2Proof.Machine
end

