-- ==== Sys2Proof/Machine/Flags.lean ====
section
/-! DEFINITION. The status of a response: its 4-bit code and its class (rules R160-R164). The unit has no other flag (rule R26). -/

namespace Sys2Proof.Machine

/-- The codes of the errors (rule R160). -/
def Error.code : Error → StatusCode
  | .zeroHasNoBit => 1
  | .divisionByZero => 2
  | .resultOverflow => 3
  | .resultIsMax => 4
  | .productDivAmount => 5
  | .priceOverflow => 6
  | .priceUnderflow => 7
  | .overflow => 8
  | .underflow => 9

/-- The codes of the faults (rule R160). -/
def Fault.code : Fault → StatusCode
  | .unsafeDivByZero => 12
  | .illegalOperand => 13
  | .illegalCommand => 15

/-- The `STATUS` field as the host reads it (rules R22, R160). -/
def Status.code : Status → StatusCode
  | .ok => 0
  | .error e => e.code
  | .fault f => f.code

/-- The status a 4-bit code stands for; `none` for the reserved codes 10, 11 and 14, which have no meaning (rule R164; U7). -/
def Status.ofCode? (n : StatusCode) : Option Status :=
  match n.toNat with
  | 0 => some .ok
  | 1 => some (.error .zeroHasNoBit)
  | 2 => some (.error .divisionByZero)
  | 3 => some (.error .resultOverflow)
  | 4 => some (.error .resultIsMax)
  | 5 => some (.error .productDivAmount)
  | 6 => some (.error .priceOverflow)
  | 7 => some (.error .priceUnderflow)
  | 8 => some (.error .overflow)
  | 9 => some (.error .underflow)
  | 12 => some (.fault .unsafeDivByZero)
  | 13 => some (.fault .illegalOperand)
  | 15 => some (.fault .illegalCommand)
  | _ => none

/-- The status is one of the faults (rule R162). -/
def Status.isFault : Status → Bool
  | .ok => false
  | .error _ => false
  | .fault _ => true

/-- The fault of a status, if it is one (rule R162). -/
def Status.fault? : Status → Option Fault
  | .ok => none
  | .error _ => none
  | .fault f => some f

/-- The status that `raise E` gives the response (rule R13). -/
def Raise.status : Raise → Status
  | .error e => .error e
  | .fault f => .fault f

end Sys2Proof.Machine
end

