-- ==== Sys2Proof/Decode.lean ====
section
/-! DEFINITION. Decoding of command words, total and rejecting by name (rules R60-R65, R70), the encoder, and the operand table (rule R66). -/

namespace Sys2Proof

/-- Why a command word is illegal: the three tests of rule R65 in their order. Each raises `IllegalCommand` (rule R70). -/
inductive IllegalWord where
  /-- `RSV = CMD[15:5]` is not zero (rule R63). -/
  | reservedBits
  /-- `OP` is `0x0` or `0x9` to `0xF` (rule R64). -/
  | reservedOpcode
  /-- `DIR = 1` on an operation other than `SQRT0` and `SQRT1` (rule R62). -/
  | directionBit
  deriving DecidableEq, Repr

/-- What the unit reads from a command word: a legal command, or the reason the word is illegal. -/
inductive Decoded where
  | legal (i : Instr)
  | illegal (why : IllegalWord)
  deriving DecidableEq, Repr

/-- `OP = CMD[3:0]` (rule R60). -/
def opField (w : CmdWord) : Nat := (w.extractLsb' 0 4).toNat

/-- `DIR = CMD[4]` (rule R60). -/
def dirField (w : CmdWord) : Nat := (w.extractLsb' 4 1).toNat

/-- `RSV = CMD[15:5]` (rule R60). -/
def rsvField (w : CmdWord) : Nat := (w.extractLsb' 5 11).toNat

/-- The command that `(OP, DIR)` selects (rules R62, R64). -/
def instrOf : Nat → Nat → Option Instr
  | 1, 0 => some .msb
  | 2, 0 => some .lsb
  | 3, 0 => some .udivru
  | 4, 0 => some .muldiv
  | 5, 0 => some .muldivru
  | 6, 0 => some .adddelta
  | 7, 0 => some .sqrt0Rem
  | 7, 1 => some .sqrt0Add
  | 8, 0 => some .sqrt1Rem
  | 8, 1 => some .sqrt1Add
  | _, _ => none

/-- `decode(CMD)` (rule R65), total on every 16-bit word. The last `none` is never reached: the three tests leave only the ten pairs. -/
def decode (w : CmdWord) : Decoded :=
  if rsvField w ≠ 0 then .illegal .reservedBits
  else if opField w = 0 ∨ 9 ≤ opField w then .illegal .reservedOpcode
  else if dirField w = 1 ∧ ¬(opField w = 7 ∨ opField w = 8) then .illegal .directionBit
  else
    match instrOf (opField w) (dirField w) with
    | some i => .legal i
    | none => .illegal .reservedOpcode

/-- The `OP` value of a command (rule R64). -/
def Instr.op : Instr → BitVec 4
  | .msb => 0x1
  | .lsb => 0x2
  | .udivru => 0x3
  | .muldiv => 0x4
  | .muldivru => 0x5
  | .adddelta => 0x6
  | .sqrt0Rem => 0x7
  | .sqrt0Add => 0x7
  | .sqrt1Rem => 0x8
  | .sqrt1Add => 0x8

/-- The `DIR` bit of a command (rule R62). -/
def Instr.dir : Instr → BitVec 1
  | .msb => 0
  | .lsb => 0
  | .udivru => 0
  | .muldiv => 0
  | .muldivru => 0
  | .adddelta => 0
  | .sqrt0Rem => 0
  | .sqrt0Add => 1
  | .sqrt1Rem => 0
  | .sqrt1Add => 1

/-- The command word of a command: `RSV`, `DIR`, `OP` from the high bits down (rule R60). -/
def encode (i : Instr) : CmdWord := 0#11 ++ i.dir ++ i.op

/-- The legal command, if there is one. -/
def Decoded.instr? : Decoded → Option Instr
  | .legal i => some i
  | .illegal _ => none

/-- The command the decoder reads from a word numbered as spec/opcode_table.json numbers it. A command word has 16 bits and no
byte order (rules R44, R61), so the table's bit `i` is `CMD[i]`. -/
def decodeTableWord (nbits w : Nat) : Option Instr :=
  if nbits ≤ 16 ∧ w < 2 ^ nbits then (decode (BitVec.ofNat 16 w)).instr? else none

/-- How a slot carries an operand (rules R66, R68). -/
inductive OperandKind where
  /-- The whole slot, an unsigned 256-bit value. -/
  | u256
  /-- Bits `[127:0]`, an unsigned 128-bit value; bits `[255:128]` must be zero. -/
  | u128
  /-- Bits `[127:0]`, a 128-bit two's-complement value; bits `[255:128]` must be zero. -/
  | i128
  deriving DecidableEq, Repr

/-- The operands of each command in slot order `A`, `B`, `C`; a slot past the end of the list is unused (rule R66). -/
def Instr.operandKinds : Instr → List OperandKind
  | .msb => [.u256]
  | .lsb => [.u256]
  | .udivru => [.u256, .u256]
  | .muldiv => [.u256, .u256, .u256]
  | .muldivru => [.u256, .u256, .u256]
  | .adddelta => [.u128, .i128]
  | .sqrt0Rem => [.u256, .u128, .u256]
  | .sqrt0Add => [.u256, .u128, .u256]
  | .sqrt1Rem => [.u256, .u128, .u256]
  | .sqrt1Add => [.u256, .u128, .u256]

end Sys2Proof
end

