-- ==== Sys2Proof/Machine/Operands.lean ====
section
/-! DEFINITION. How operands are taken from the slots of a request (rules R12, R45, R66, R68). -/

namespace Sys2Proof.Machine

/-- Bits `[127:0]` of a slot as an unsigned integer (rules R45, R68). -/
def lowHalf (w : Word) : Nat := (w.extractLsb' 0 128).toNat

/-- Bits `[255:128]` of a slot are zero (rules R45, R68). -/
def highHalfZero (w : Word) : Bool := w.extractLsb' 128 128 == 0#128

/-- `signed_128(p)`: the value of a 128-bit two's-complement pattern (rule R12). -/
def signed128 (p : Nat) : Int := if p < 2 ^ 127 then (p : Int) else (p : Int) - 2 ^ 128

/-- The stepper's test: `B[255:128]` must be zero (rule R68). -/
def checkLiquiditySlot (q : Request) : Option Fault :=
  if highHalfZero q.b then none else some .illegalOperand

/-- `check_operands(op)` (rule R68): the fault it raises, `none` where the operands pass. The other commands check nothing. -/
def checkOperands (i : Instr) (q : Request) : Option Fault :=
  match i with
  | .msb => none
  | .lsb => none
  | .udivru => none
  | .muldiv => none
  | .muldivru => none
  | .adddelta => if highHalfZero q.a && highHalfZero q.b then none else some .illegalOperand
  | .sqrt0Rem => checkLiquiditySlot q
  | .sqrt0Add => checkLiquiditySlot q
  | .sqrt1Rem => checkLiquiditySlot q
  | .sqrt1Add => checkLiquiditySlot q

end Sys2Proof.Machine
end

