-- ==== Sys2Proof/Machine/Ops.lean ====
section
/-! DEFINITION. The operations every command shares: exact division, ending a routine, answering the request being served, raising a status,
taking the next request, and what the host does at the interface (rules R10, R13, R22, R163, R165, R166, R180, R187). -/

namespace Sys2Proof.Machine

/-- `ceil_div(x, y)` (rule R10). -/
def ceilDiv (x y : Nat) : Nat := x / y + (if x % y ≠ 0 then 1 else 0)

/-- Calls one routine inside another: a status the callee raises is raised by the caller at once (rule R166). -/
def Answer.andThen (x : Answer) (f : Nat → Answer) : Answer :=
  match x with
  | .ret v => f v
  | .raise e => .raise e

/-- The response to a command that ended with this answer (rules R22, R69, R163). `R` is the result zero-extended; 0 for every error and for
`IllegalCommand` and `IllegalOperand`; the free value for `UnsafeDivByZero`. -/
def Answer.response (x : Answer) (free : Word) : Response :=
  match x with
  | .ret v => { status := .ok, r := BitVec.ofNat 256 v }
  | .raise (.error e) => { status := .error e, r := 0 }
  | .raise (.fault .unsafeDivByZero) => { status := .fault .unsafeDivByZero, r := free }
  | .raise (.fault .illegalOperand) => { status := .fault .illegalOperand, r := 0 }
  | .raise (.fault .illegalCommand) => { status := .fault .illegalCommand, r := 0 }

/-- How many free results the answer draws: one for `UnsafeDivByZero`, none otherwise (rule R163; log entry 5). -/
def Answer.drawsUsed (x : Answer) : Nat :=
  match x with
  | .ret _ => 0
  | .raise (.error _) => 0
  | .raise (.fault .unsafeDivByZero) => 1
  | .raise (.fault .illegalOperand) => 0
  | .raise (.fault .illegalCommand) => 0

/-- `respond(s, r)` (rule R13): the request being served is answered, its response goes to its requester, and nothing else is changed
(rules R22, R168, R175). An error or fault takes the same way: it saves no state and transfers control nowhere (rule R168). -/
def State.complete (s : State) (who : Requester) (x : Answer) : State :=
  { s with
    serving := none
    responses := s.responses ++ [{ who := who, rsp := x.response (Config.freeResult s.draws) }]
    draws := s.draws + x.drawsUsed }

/-- What a command answers to a request: the operand check first, then the command's own pseudocode (rule R165). -/
def answerTo (i : Instr) (op : Request → Answer) (q : Request) : Answer :=
  match checkOperands i q with
  | some f => .raise (.fault f)
  | none => op q

/-- Runs a command on the request being served. With no request the unit does nothing (rule R177). -/
def serve (i : Instr) (op : Request → Answer) (s : State) : Host.Outcome State Fault Refusal :=
  match s.serving with
  | none => .next s
  | some q => .next (s.complete q.who (answerTo i op q.req))

/-- Answers an illegal command word: `raise IllegalCommand`, no operand read (rules R65, R70, R165). -/
def rejectWord (q : InFlight) (s : State) : Host.Outcome State Fault Refusal :=
  .next (s.complete q.who (.raise (.fault .illegalCommand)))

/-- The `k`-th element of `x :: xs`, the last one where the list is shorter. -/
def nthOrLast (k : Nat) (x : InFlight) (xs : List InFlight) : InFlight :=
  match xs with
  | [] => x
  | y :: ys =>
    match k with
    | 0 => x
    | k' + 1 => nthOrLast k' y ys
termination_by structural xs

/-- Takes the next request to the port, if the port is free and a request waits. A free value picks the requester, since no order is promised
between requesters; that requester's OLDEST request is taken, so its responses keep the order of its requests (rules R48, R175, R187). -/
def fetch (s : State) : State :=
  match s.serving with
  | some _ => s
  | none =>
    match s.inflight with
    | [] => s
    | x :: xs =>
      let who := (nthOrLast (Config.freePick s.picks) x xs).who
      match (x :: xs).find? (fun p => p.who == who) with
      | none => s
      | some q =>
        { s with
          inflight := (x :: xs).eraseP (fun p => p.who == who)
          serving := some q
          picks := s.picks + 1 }

/-- `req_ready`: the unit takes a request while fewer than `MAX_INFLIGHT` are in flight (rules R9, R23, R187). -/
def State.reqReady (s : State) : Bool := decide (s.inflight.length < Config.maxInflight)

/-- `rsp_valid`: a response is pending (rules R23, R31). -/
def State.rspValid (s : State) : Bool := !s.responses.isEmpty

/-- The host presents a request: the unit takes it when it is ready, and leaves it to the host otherwise (rule R23). -/
def State.accept (s : State) (p : InFlight) : State :=
  if s.reqReady then { s with inflight := s.inflight ++ [p] } else s

/-- Hands a response to its requester: a fault response fails the requester's run (rule R162). -/
def deliver (rsp : Response) (t : State) : Delivery :=
  match rsp.status.fault? with
  | none => .response rsp t
  | some f => .failed f t

/-- A requester takes its oldest pending response (rules R23, R162, R175, R187). -/
def State.takeResponse (s : State) (who : Requester) : Delivery :=
  match s.responses.find? (fun d => d.who == who) with
  | none => .nothing
  | some d => deliver d.rsp { s with responses := s.responses.eraseP (fun e => e.who == who) }

/-- Reset is asserted: every request not yet answered and every response not yet delivered is discarded (rules R31, R180).
The model's counters go on, so that no draw before reset is equated with a draw after it (log entries 5 and 6). -/
def State.assertReset (s : State) : State :=
  { s with inflight := [], serving := none, responses := [] }

end Sys2Proof.Machine
end

