-- ==== Sys2Proof/Machine/BitScanner.lean ====
section
/-! DEFINITION. Component (1), the bit scanner: `MSB` and `LSB` (rules R80-R83). -/

namespace Sys2Proof.Machine

/-- The answer for the bit index found; `ZeroHasNoBit` where no index satisfies the test. -/
def indexAnswer : Option Nat → Answer
  | some i => .ret i
  | none => .raise (.error .zeroHasNoBit)

/-- `most_significant_bit(x)` (rule R80): the integer `i` in `[0, 255]` with `2^i <= x < 2^(i+1)`. -/
def mostSignificantBit (x : Nat) : Answer :=
  if x = 0 then .raise (.error .zeroHasNoBit)
  else indexAnswer ((List.range 256).find? (fun i => decide (2 ^ i ≤ x ∧ x < 2 ^ (i + 1))))

/-- `least_significant_bit(x)` (rule R81, corrected form of 90_conflicts.md C1): the integer `j` in `[0, 255]` with `x % 2^j = 0` and
`x % 2^(j+1) != 0`. -/
def leastSignificantBit (x : Nat) : Answer :=
  if x = 0 then .raise (.error .zeroHasNoBit)
  else indexAnswer ((List.range 256).find? (fun j => decide (x % 2 ^ j = 0 ∧ x % 2 ^ (j + 1) ≠ 0)))

/-- `MSB`: `x = A` (rule R80). -/
def execMsb (s : State) : Host.Outcome State Fault Refusal :=
  serve .msb (fun q => mostSignificantBit q.a.toNat) s

/-- `LSB`: `x = A` (rule R81). -/
def execLsb (s : State) : Host.Outcome State Fault Refusal :=
  serve .lsb (fun q => leastSignificantBit q.a.toNat) s

end Sys2Proof.Machine
end

