-- ==== Sys2Proof/Machine/LiquidityDelta.lean ====
section
/-! DEFINITION. Component (4), the liquidity delta applier: `ADDDELTA` (rules R120-R122). -/

namespace Sys2Proof.Machine

/-- `add_delta(liquidity, delta)` (rule R120); the magnitude `-delta` is exact, for `-2^127` too. -/
def addDelta (liquidity : Nat) (delta : Int) : Answer :=
  if delta < 0 then
    if liquidity < (-delta).toNat then .raise (.error .underflow) else .ret (liquidity - (-delta).toNat)
  else if Config.maxU128 < liquidity + delta.toNat then .raise (.error .overflow)
  else .ret (liquidity + delta.toNat)

/-- `ADDDELTA`: `liquidity = A[127:0]`, `delta = signed_128(B[127:0])` (rules R68, R120). -/
def execAdddelta (s : State) : Host.Outcome State Fault Refusal :=
  serve .adddelta (fun q => addDelta (lowHalf q.a) (signed128 (lowHalf q.b))) s

end Sys2Proof.Machine
end

