-- ==== Sys2Proof/Machine/MulDiv.lean ====
section
/-! DEFINITION. Component (3), the full-precision multiply-divide: `MULDIV` and `MULDIVRU` (rules R100-R105, R112). -/

namespace Sys2Proof.Machine

/-- `mul_div(x, y, d)` (rule R100), with `prod1` and `prod0` the high and low halves of the exact product. -/
def mulDiv (x y d : Nat) : Answer :=
  if x * y / 2 ^ 256 = 0 then
    if d = 0 then .raise (.error .divisionByZero) else .ret (x * y % 2 ^ 256 / d)
  else if d ≤ x * y / 2 ^ 256 then .raise (.error .resultOverflow)
  else .ret (x * y / d)

/-- `mul_div_round_up(x, y, d)` (rule R101). -/
def mulDivRoundUp (x y d : Nat) : Answer :=
  (mulDiv x y d).andThen fun r =>
    if x * y % d ≠ 0 then
      if r = Config.maxU256 then .raise (.error .resultIsMax) else .ret (r + 1)
    else .ret r

/-- `MULDIV`: `x = A`, `y = B`, `d = C` (rule R100). -/
def execMuldiv (s : State) : Host.Outcome State Fault Refusal :=
  serve .muldiv (fun q => mulDiv q.a.toNat q.b.toNat q.c.toNat) s

/-- `MULDIVRU`: `x = A`, `y = B`, `d = C` (rule R101). -/
def execMuldivru (s : State) : Host.Outcome State Fault Refusal :=
  serve .muldivru (fun q => mulDivRoundUp q.a.toNat q.b.toNat q.c.toNat) s

end Sys2Proof.Machine
end

