-- ==== Sys2Proof/Machine/UnsafeDivider.lean ====
section
/-! DEFINITION. Component (2), the unsafe divider: `UDIVRU` (rules R90-R92). -/

namespace Sys2Proof.Machine

/-- `unsafe_div_round_up(x, y)` (rules R90, R91). -/
def unsafeDivRoundUp (x y : Nat) : Answer :=
  if y = 0 then .raise (.fault .unsafeDivByZero) else .ret (ceilDiv x y)

/-- `UDIVRU`: `x = A`, `y = B` (rule R90). -/
def execUdivru (s : State) : Host.Outcome State Fault Refusal :=
  serve .udivru (fun q => unsafeDivRoundUp q.a.toNat q.b.toNat) s

end Sys2Proof.Machine
end

