-- ==== Sys2Proof/Machine/SqrtPriceStepper.lean ====
section
/-! DEFINITION. Component (5), the sqrt-price stepper: `SQRT0` and `SQRT1` with their add and remove forms (rules R130-R139). -/

namespace Sys2Proof.Machine

/-- `check_price(p)` (rule R130). -/
def checkPrice (p : Nat) : Answer :=
  if Config.maxU160 < p then .raise (.error .priceOverflow) else .ret p

/-- The quotient of the overflow-safer form of `SQRT0.ADD`, whose divisor `s` is an exact sum that may pass 256 bits (rule R132; D14). -/
def fallbackQuotient (n s : Nat) : Answer :=
  if s < 2 ^ 256 then unsafeDivRoundUp n s else .ret (ceilDiv n s)

/-- The body of `SQRT0.ADD` (rule R132), for `amt >= 1` and `n = L << 96`. -/
def sqrt0AddBody (n p amt : Nat) : Answer :=
  (if amt * p < 2 ^ 256 ∧ n + amt * p < 2 ^ 256 then mulDivRoundUp n p (n + amt * p)
   else fallbackQuotient n (n / p + amt)).andThen checkPrice

/-- The body of `SQRT0.REM` (rule R133), for `amt >= 1` and `n = L << 96`. -/
def sqrt0RemBody (n p amt : Nat) : Answer :=
  if 2 ^ 256 ≤ amt * p ∨ ¬(amt * p < n) then .raise (.error .productDivAmount)
  else (mulDivRoundUp n p (n - amt * p)).andThen checkPrice

/-- `get_next_sqrt_price_from_amount0_rounding_up(P, L, amt, add)` (rule R131); `add` is `DIR = 1`. -/
def nextSqrtPriceFromAmount0RoundingUp (p l amt : Nat) (add : Bool) : Answer :=
  if amt = 0 then checkPrice p
  else if add then sqrt0AddBody (l * 2 ^ 96) p amt
  else sqrt0RemBody (l * 2 ^ 96) p amt

/-- The quotient `floor(amt * 2^96 / L)` of `SQRT1.ADD`: direct when the amount fits in 160 bits, full precision otherwise (rule R136; D15). -/
def token1QuotientDown (l amt : Nat) : Answer :=
  if amt ≤ Config.maxU160 then
    if l = 0 then .raise (.error .divisionByZero) else .ret (amt * 2 ^ 96 / l)
  else mulDiv amt (2 ^ 96) l

/-- The quotient `ceil_div(amt * 2^96, L)` of `SQRT1.REM`, with the same threshold (rule R137; D15). -/
def token1QuotientUp (l amt : Nat) : Answer :=
  if amt ≤ Config.maxU160 then
    if l = 0 then .raise (.error .divisionByZero) else unsafeDivRoundUp (amt * 2 ^ 96) l
  else mulDivRoundUp amt (2 ^ 96) l

/-- The body of `SQRT1.ADD` (rule R136); the sum is exact. -/
def sqrt1AddBody (p l amt : Nat) : Answer :=
  (token1QuotientDown l amt).andThen fun q => checkPrice (q + p)

/-- The body of `SQRT1.REM` (rule R137). -/
def sqrt1RemBody (p l amt : Nat) : Answer :=
  (token1QuotientUp l amt).andThen fun q =>
    if p ≤ q then .raise (.error .priceUnderflow) else checkPrice (p - q)

/-- `get_next_sqrt_price_from_amount1_rounding_down(P, L, amt, add)` (rule R135): no exit for an amount of 0. -/
def nextSqrtPriceFromAmount1RoundingDown (p l amt : Nat) (add : Bool) : Answer :=
  if add then sqrt1AddBody p l amt else sqrt1RemBody p l amt

/-- `SQRT0.REM`: `P = A`, `L = B[127:0]`, `amt = C`, `DIR = 0` (rules R130, R133). -/
def execSqrt0Rem (s : State) : Host.Outcome State Fault Refusal :=
  serve .sqrt0Rem (fun q => nextSqrtPriceFromAmount0RoundingUp q.a.toNat (lowHalf q.b) q.c.toNat false) s

/-- `SQRT0.ADD`: `P = A`, `L = B[127:0]`, `amt = C`, `DIR = 1` (rules R130, R132). -/
def execSqrt0Add (s : State) : Host.Outcome State Fault Refusal :=
  serve .sqrt0Add (fun q => nextSqrtPriceFromAmount0RoundingUp q.a.toNat (lowHalf q.b) q.c.toNat true) s

/-- `SQRT1.REM`: `P = A`, `L = B[127:0]`, `amt = C`, `DIR = 0` (rules R130, R137). -/
def execSqrt1Rem (s : State) : Host.Outcome State Fault Refusal :=
  serve .sqrt1Rem (fun q => nextSqrtPriceFromAmount1RoundingDown q.a.toNat (lowHalf q.b) q.c.toNat false) s

/-- `SQRT1.ADD`: `P = A`, `L = B[127:0]`, `amt = C`, `DIR = 1` (rules R130, R136). -/
def execSqrt1Add (s : State) : Host.Outcome State Fault Refusal :=
  serve .sqrt1Add (fun q => nextSqrtPriceFromAmount1RoundingDown q.a.toNat (lowHalf q.b) q.c.toNat true) s

end Sys2Proof.Machine
end

