-- ==== Sys2Proof/Machine/Dispatch.lean ====
section
/-! DEFINITION. One arm for each command of the table (rule R64). -/

namespace Sys2Proof.Machine

def exec (i : Instr) (s : State) : Host.Outcome State Fault Refusal :=
  match i with
  | .msb => Sys2Proof.Machine.execMsb s
  | .lsb => Sys2Proof.Machine.execLsb s
  | .udivru => Sys2Proof.Machine.execUdivru s
  | .muldiv => Sys2Proof.Machine.execMuldiv s
  | .muldivru => Sys2Proof.Machine.execMuldivru s
  | .adddelta => Sys2Proof.Machine.execAdddelta s
  | .sqrt0Rem => Sys2Proof.Machine.execSqrt0Rem s
  | .sqrt0Add => Sys2Proof.Machine.execSqrt0Add s
  | .sqrt1Rem => Sys2Proof.Machine.execSqrt1Rem s
  | .sqrt1Add => Sys2Proof.Machine.execSqrt1Add s

end Sys2Proof.Machine
end

