-- ==== Sys2Proof/Machine/Step.lean ====
section
/-! DEFINITION. One step of the unit: one command, from its request to its response, as one indivisible transaction (rules R20, R47, R165). -/

namespace Sys2Proof.Machine

/-- The command at the port is decoded before any operand is read, then executed; an illegal word raises `IllegalCommand` (rules R65, R165).
With no request the unit does nothing until one arrives (rule R177). -/
def stepPort (s : State) : Host.Outcome State Fault Refusal :=
  match s.serving with
  | none => .next s
  | some q =>
    match decode q.req.cmd with
    | .legal i => exec i s
    | .illegal _ => rejectWord q s

/-- One step: take the next request, execute its command, deliver its response. -/
def step (s : State) : Host.Outcome State Fault Refusal := stepPort (fetch s)

/-- The state with a request at the port whose command word is the table's word, its operand slots zero: the request the very next step runs.
The unit fetches nothing by itself (rule R25); this stands for the host issuing the command (log entry 4),
before the requests that wait, those of the same requester too (DESIGN CHOICE, log entry 17). -/
def State.withFetchWord (s : State) (nbits w : Nat) : State :=
  { s with serving := some { who := 0, req := { cmd := BitVec.ofNat 16 (w % 2 ^ nbits), a := 0, b := 0, c := 0 } } }

end Sys2Proof.Machine
end

