-- ==== Sys2Proof/WellFormed.lean ====
section
/-! DEFINITION. Well-formed requests, that is the host's obligations (rules R183, R184), and well-formed commands with operands as integers (rules R66, R68). -/

namespace Sys2Proof

/-- The ten legal command words as rule R64 lists them, written without the decoder. -/
def legalWords : List CmdWord :=
  [0x0001, 0x0002, 0x0003, 0x0004, 0x0005, 0x0006, 0x0007, 0x0017, 0x0008, 0x0018]

/-- The host issues only the ten legal command words (rule R183). -/
def Request.legalWord (q : Request) : Bool := legalWords.contains q.cmd

/-- The host keeps every 128-bit operand within 128 bits (rule R183). -/
def Request.operandsInRange (q : Request) : Bool :=
  if q.cmd = 0x0006 then decide (q.a.toNat < 2 ^ 128 ∧ q.b.toNat < 2 ^ 128)
  else if q.cmd = 0x0007 ∨ q.cmd = 0x0017 ∨ q.cmd = 0x0008 ∨ q.cmd = 0x0018 then decide (q.b.toNat < 2 ^ 128)
  else true

/-- The host establishes `y != 0` before it issues `UDIVRU` (rule R184). -/
def Request.divisorEstablished (q : Request) : Bool := q.cmd != 0x0003 || q.b != 0

/-- The request meets every obligation of the host (rules R183, R184). -/
def Request.wf (q : Request) : Bool := q.legalWord && q.operandsInRange && q.divisorEstablished

/-- A command with its operands as mathematical integers, in slot order (rules R10, R66). -/
structure Command where
  instr : Instr
  operands : List Int
  deriving DecidableEq, Repr

/-- The integer lies in the operand's range (rules R10, R12, R68). -/
def OperandKind.holds : OperandKind → Int → Bool
  | .u256, v => decide (0 ≤ v ∧ v < 2 ^ 256)
  | .u128, v => decide (0 ≤ v ∧ v < 2 ^ 128)
  | .i128, v => decide (-2 ^ 127 ≤ v ∧ v < 2 ^ 127)

/-- The command has one operand for each slot it uses (rule R66). -/
def Command.arityOk (c : Command) : Bool := c.operands.length == c.instr.operandKinds.length

/-- Every operand lies in its range. -/
def Command.rangesOk (c : Command) : Bool := (List.zipWith OperandKind.holds c.instr.operandKinds c.operands).all id

/-- A well-formed command. -/
def Command.wf (c : Command) : Bool := c.arityOk && c.rangesOk

end Sys2Proof
end

