-- ==== Sys2Proof/Machine/Assembler.lean ====
section
/-! DEFINITION. Requests from commands and back (rules R66, R68), the assembly lines of rule R72 as data, and the pseudo-instructions of rule R73. -/

namespace Sys2Proof.Machine

/-- The slot that carries an operand (rules R12, R66, R68). A negative delta is its 128-bit two's-complement pattern (rule R72). -/
def encodeOperand (k : OperandKind) (v : Int) : Word :=
  match k with
  | .u256 => BitVec.ofInt 256 v
  | .u128 => BitVec.ofInt 256 v
  | .i128 => (BitVec.ofInt 128 v).setWidth 256

/-- The operand a slot carries; `none` where a 128-bit operand has a bit set in `[255:128]` (rule R68). -/
def decodeOperand (k : OperandKind) (w : Word) : Option Int :=
  match k with
  | .u256 => some (w.toNat : Int)
  | .u128 => if highHalfZero w then some (lowHalf w : Int) else none
  | .i128 => if highHalfZero w then some (signed128 (lowHalf w)) else none

/-- The operands of the slots, in slot order. -/
def decodeOperands : List OperandKind → List Word → Option (List Int)
  | [], _ => some []
  | _ :: _, [] => none
  | k :: ks, w :: ws =>
    match decodeOperand k w with
    | none => none
    | some v =>
      match decodeOperands ks ws with
      | none => none
      | some vs => some (v :: vs)

/-- The request that issues a command: unused slots carry 0 (rules R60, R66, R67). -/
def encodeRequest (c : Command) : Request :=
  let ws := List.zipWith encodeOperand c.instr.operandKinds c.operands
  { cmd := encode c.instr, a := ws.getD 0 0, b := ws.getD 1 0, c := ws.getD 2 0 }

/-- What a request asks for, or the fault that its decoding or its operand check raises, in that order (rule R165). -/
inductive DecodedRequest where
  | command (c : Command)
  | fault (f : Fault)
  deriving DecidableEq, Repr

/-- Decodes a whole request: its command word, then its operand slots (rules R65, R66, R68). -/
def decodeRequest (q : Request) : DecodedRequest :=
  match decode q.cmd with
  | .illegal _ => .fault .illegalCommand
  | .legal i =>
    match decodeOperands i.operandKinds [q.a, q.b, q.c] with
    | none => .fault .illegalOperand
    | some vs => .command { instr := i, operands := vs }

/-- The mnemonics of rules R64 and R73. -/
inductive Mnemonic where
  | msb
  | lsb
  | udivru
  | muldiv
  | muldivru
  | adddelta
  | sqrt0
  | sqrt1
  | cmul
  | cdiv
  | cdivru
  deriving DecidableEq, Repr

/-- The suffixes of rule R72. -/
inductive Suffix where
  | add
  | rem
  deriving DecidableEq, Repr

/-- A name bound to an earlier result (rule R74); the model numbers the names of a program (log entry 9). -/
abbrev ResultName := Nat

/-- An operand as it is written (rule R72). Decimal and hexadecimal literals are one form: the integer they denote. -/
inductive AsmOperand where
  | lit (n : Nat)
  | neg (n : Nat)
  | pow2 (k : Nat)
  | name (x : ResultName)
  deriving DecidableEq, Repr

/-- An assembly line `MNEMONIC[.ADD|.REM] a, b, c` (rule R72). -/
structure AsmLine where
  mnemonic : Mnemonic
  suffix : Option Suffix
  operands : List AsmOperand
  deriving DecidableEq, Repr

/-- A host binding: the response that a name stands for (rule R74). -/
structure Binding where
  name : ResultName
  rsp : Response
  deriving DecidableEq, Repr

/-- Why a line cannot be assembled. These are errors of the host's text, never statuses of the unit. -/
inductive AsmError where
  /-- A suffix is missing on `SQRT0` or `SQRT1`, or stands on another mnemonic (rule R72). -/
  | suffix
  /-- The line has too few or too many operands (rule R72). -/
  | arity
  /-- A name is bound to no earlier result (rule R74). -/
  | unboundName
  /-- The line uses the `R` of a response that is not `OK`, which no program may (rule R163). -/
  | resultOfNonOk
  /-- The operand has no pattern in its slot: it is no 256-bit unsigned value, or no 128-bit signed value (rules R10, R12). -/
  | outOfRange
  deriving DecidableEq, Repr

/-- The result of assembling: a request, or why there is none. -/
inductive Assembled where
  | request (q : Request)
  | error (e : AsmError)
  deriving DecidableEq, Repr

/-- The expansion of a pseudo-instruction (rule R73); any other line, and one with the wrong number of operands, is left as it is. -/
def expandPseudo (line : AsmLine) : AsmLine :=
  match line.mnemonic, line.operands with
  | .cmul, [x, y] => { line with mnemonic := .muldiv, operands := [x, y, .lit 1] }
  | .cdiv, [x, y] => { line with mnemonic := .muldiv, operands := [x, .lit 1, y] }
  | .cdivru, [x, y] => { line with mnemonic := .muldivru, operands := [x, .lit 1, y] }
  | _, _ => line

/-- The command a mnemonic and suffix name (rules R62, R72): a suffix is required on the two steppers and forbidden elsewhere. A pseudo-instruction
names none: it is expanded first. -/
def asmInstr : Mnemonic → Option Suffix → Option Instr
  | .msb, none => some .msb
  | .lsb, none => some .lsb
  | .udivru, none => some .udivru
  | .muldiv, none => some .muldiv
  | .muldivru, none => some .muldivru
  | .adddelta, none => some .adddelta
  | .sqrt0, some .rem => some .sqrt0Rem
  | .sqrt0, some .add => some .sqrt0Add
  | .sqrt1, some .rem => some .sqrt1Rem
  | .sqrt1, some .add => some .sqrt1Add
  | _, _ => none

/-- The value of an operand, or why it has none (rules R72, R74, R163). -/
inductive AsmValue where
  | value (v : Int)
  | error (e : AsmError)
  deriving DecidableEq, Repr

/-- The value of one operand under the host's bindings; the newest binding of a name counts. -/
def evalOperand (bs : List Binding) : AsmOperand → AsmValue
  | .lit n => .value n
  | .neg n => .value (-(n : Int))
  | .pow2 k => .value (2 ^ k : Nat)
  | .name x =>
    match bs.find? (fun b => b.name == x) with
    | none => .error .unboundName
    | some b => if b.rsp.status = .ok then .value b.rsp.r.toNat else .error .resultOfNonOk

/-- The value has a pattern in the slot. A liquidity above 128 bits has one and is for the unit to reject (rule R68, vector V-DC-9). -/
def fitsSlot : OperandKind → Int → Bool
  | .u256, v => decide (0 ≤ v ∧ v < 2 ^ 256)
  | .u128, v => decide (0 ≤ v ∧ v < 2 ^ 256)
  | .i128, v => decide (-2 ^ 127 ≤ v ∧ v < 2 ^ 127)

/-- The values of the operands of a line, or the first error. -/
inductive AsmValues where
  | values (vs : List Int)
  | error (e : AsmError)
  deriving DecidableEq, Repr

/-- Evaluates operands against the kinds of their slots, left to right. -/
def evalOperands (bs : List Binding) : List OperandKind → List AsmOperand → AsmValues
  | [], [] => .values []
  | [], _ :: _ => .error .arity
  | _ :: _, [] => .error .arity
  | k :: ks, o :: os =>
    match evalOperand bs o with
    | .error e => .error e
    | .value v =>
      if fitsSlot k v then
        match evalOperands bs ks os with
        | .error e => .error e
        | .values vs => .values (v :: vs)
      else .error .outOfRange

/-- Assembles one line under the host's bindings (rules R72-R74). -/
def assemble (bs : List Binding) (line : AsmLine) : Assembled :=
  let core := expandPseudo line
  match core.mnemonic with
  | .cmul => .error .arity
  | .cdiv => .error .arity
  | .cdivru => .error .arity
  | m =>
    match asmInstr m core.suffix with
    | none => .error .suffix
    | some i =>
      match evalOperands bs i.operandKinds core.operands with
      | .error e => .error e
      | .values vs => .request (encodeRequest { instr := i, operands := vs })

end Sys2Proof.Machine
end

