-- ==== Sys2Proof/Machine/HostProgram.lean ====
section
/-! DEFINITION. The host's side: sequences of commands in the notation of rule R74, the host's stop on a non-`OK` response, and the failed run
that a fault makes of it (rules R74, R162, R163). The unit's own state is `State`; what is here is the host's. -/

namespace Sys2Proof.Machine

/-- A command as the host issues it. -/
inductive HostCommand where
  /-- An assembly line (rule R72). -/
  | line (l : AsmLine)
  /-- A raw request: any command word and any slots, whether or not a line assembles to it (95_test_vectors.md). -/
  | raw (q : Request)
  deriving DecidableEq, Repr

/-- The request a command stands for under the host's bindings, or why it has none. -/
def HostCommand.request (bs : List Binding) : HostCommand → Assembled
  | .line l => assemble bs l
  | .raw q => .request q

/-- A host program (rule R74). -/
inductive HostProgram where
  /-- The end of a sequence. -/
  | done
  /-- `name <- COMMAND operands`; with `goesOn` the line says that the host goes on after a status that is not `OK`
  (the comment `-- continue`, or an `if` on the status that follows). -/
  | issue (name : ResultName) (cmd : HostCommand) (goesOn : Bool)
  /-- `if name.status = S then ... else ...`. -/
  | ifStatus (name : ResultName) (st : Status) (thenP elseP : HostProgram)
  /-- One part after another. -/
  | seq (p q : HostProgram)
  deriving DecidableEq, Repr

/-- How the host's run stands. -/
inductive HostRun where
  /-- It goes on. -/
  | going
  /-- The host stopped at a response whose status is an error (rule R74). -/
  | stopped
  /-- A fault response failed the run: the host broke an obligation (rule R162). -/
  | failed (f : Fault)
  /-- The program itself has no meaning: a line that cannot be assembled, or a status of an unbound name. -/
  | rejected (e : AsmError)
  deriving DecidableEq, Repr

/-- The unit, the host's bindings (newest first), and how the run stands (rule R74). -/
structure HostState where
  unit : State
  bindings : List Binding
  run : HostRun
  deriving DecidableEq, Repr

/-- One command as one transaction (rules R22, R47): the host's request stands at the port, the unit answers it, and the host takes the response
(log entry 15). DESIGN CHOICE, unsafe where the requester has others outstanding: from any state of the unit the command is served before that requester's own waiting
requests, and its response taken before that requester's own untaken responses; the spec does not say where a host program may start (log entry 17). -/
def transact (u : State) (p : InFlight) : Delivery :=
  match step { u with serving := some p } with
  | .next t =>
    match t.responses.getLast? with
    | none => .nothing
    | some d => deliver d.rsp { t with responses := t.responses.dropLast }
  | .fault _ => .nothing
  | .refused _ => .nothing

/-- How the host stands after a response (rules R74, R162). -/
def HostRun.after (goesOn : Bool) : Status → HostRun
  | .ok => .going
  | .error _ => if goesOn then .going else .stopped
  | .fault f => .failed f

/-- The host after it has taken what came back: it binds a response, and its run fails on a fault, which binds nothing (rules R74, R162). -/
def HostState.receive (name : ResultName) (goesOn : Bool) (h : HostState) : Delivery → HostState
  | .nothing => h
  | .response rsp u => { unit := u, bindings := { name := name, rsp := rsp } :: h.bindings, run := HostRun.after goesOn rsp.status }
  | .failed f u => { h with unit := u, run := .failed f }

/-- Issues one command (rule R74). The host's requester is 0. -/
def issueCommand (name : ResultName) (cmd : HostCommand) (goesOn : Bool) (h : HostState) : HostState :=
  match cmd.request h.bindings with
  | .error e => { h with run := .rejected e }
  | .request q => h.receive name goesOn (transact h.unit { who := 0, req := q })

/-- Runs a host program. A run that no longer goes on does nothing more: after a fault no value may be used (rule R162). -/
def HostProgram.run : HostProgram → HostState → HostState
  | .done, h => h
  | .issue name cmd goesOn, h => if h.run = .going then issueCommand name cmd goesOn h else h
  | .ifStatus name st p q, h =>
    if h.run = .going then
      match h.bindings.find? (fun b => b.name == name) with
      | none => { h with run := .rejected .unboundName }
      | some b => if b.rsp.status = st then p.run h else q.run h
    else h
  | .seq p q, h => q.run (p.run h)

/-- The host's run as an outcome: a fault response is a fault of the host program, never a value it may go on with (rules R91, R162). -/
def HostState.outcome (h : HostState) : Host.Outcome HostState Fault AsmError :=
  match h.run with
  | .going => .next h
  | .stopped => .next h
  | .failed f => .fault f
  | .rejected e => .refused e

/-- The fault that a step from `s` to `t` answered to this requester, if it answered one. -/
def faultGivenTo (who : Requester) (s t : State) : Option Fault :=
  (t.responses.drop s.responses.length).findSome? fun d => if d.who = who then d.rsp.status.fault? else none

/-- One step of the unit in the run of one requester's program, whatever requests it has put in flight: a fault response to that requester is a fault
of the run (rule R162); one to another requester is not (rule R175). -/
def hostStep (who : Requester) (s : State) : Host.Outcome State Fault Refusal :=
  match step s with
  | .next t =>
    match faultGivenTo who s t with
    | none => .next t
    | some f => .fault f
  | .fault f => .fault f
  | .refused r => .refused r

/-- The unit as one requester's program runs it: `Host.Core.run` of this machine stops at that program's first fault response (rule R162). -/
def hostCore (who : Requester) : Host.Core :=
  { State := State, Fault := Fault, Refusal := Refusal, step := hostStep who, reset := State.reset }

end Sys2Proof.Machine
end

