-- ==== Sys2Proof/Machine/Reference.lean ====
section
/-! DEFINITION. The source's reference algorithm for multiply-divide (rules R106-R111). The response of rule R100 is normative and no value here is
observable (rule R105), so no command runs it; it is modelled so that its equality with `mulDiv` can be stated. Every value is 256 bits and wraps. -/

namespace Sys2Proof.Machine

/-- `(x * y) % m`, the exact `mulmod` of steps 1 and 4a (rules R106, R108). -/
def mulMod (x y : Word) (m : Nat) : Word := BitVec.ofNat 256 (x.toNat * y.toNat % m)

/-- `prod0`, the wrapping product (rule R106 (b)). -/
def refProd0 (x y : Word) : Word := x * y

/-- `prod1`, recovered from the checksum modulo `2^256 - 1` with a borrow (rule R106 (c), marked general knowledge there). -/
def refProd1 (x y : Word) : Word :=
  mulMod x y (2 ^ 256 - 1) - refProd0 x y - (if mulMod x y (2 ^ 256 - 1) < refProd0 x y then 1 else 0)

/-- `prod1` after the remainder is subtracted (rule R108). -/
def refHigh (x y d : Word) : Word :=
  refProd1 x y - (if refProd0 x y < mulMod x y d.toNat then 1 else 0)

/-- `prod0` after the remainder is subtracted (rule R108). -/
def refLow (x y d : Word) : Word := refProd0 x y - mulMod x y d.toNat

/-- `twos`, the largest power of two that divides `d` (rule R109). -/
def refTwos (d : Word) : Word := d &&& (0 - d)

/-- `d'`, the odd part of the denominator (rule R109). -/
def refOdd (d : Word) : Word := d / refTwos d

/-- `flip = 2^(256-k) mod 2^256` for `twos = 2^k` (rule R109). -/
def refFlip (d : Word) : Word := (0 - refTwos d) / refTwos d + 1

/-- The low limb after the power of two is taken out and the carry bits of the high limb are put in (rule R109). -/
def refNumerator (x y d : Word) : Word :=
  (refLow x y d / refTwos d) ||| (refHigh x y d * refFlip d)

/-- `n` Newton-Raphson steps towards the inverse of `d'` modulo `2^256` (rule R110). -/
def refNewton (odd : Word) : Nat → Word → Word
  | 0, inv => inv
  | n + 1, inv => refNewton odd n (inv * (2 - odd * inv))

/-- The inverse: the seed `(3 * d') XOR 2`, then exactly six steps (rule R110). -/
def refInverse (odd : Word) : Word := refNewton odd Config.newtonIterations ((3 * odd) ^^^ 2)

/-- The whole algorithm: the early exits of rule R107, then `prod0 * inv` (rule R111). -/
def mulDivReference (x y d : Word) : Answer :=
  if refProd1 x y = 0 then
    if d = 0 then .raise (.error .divisionByZero) else .ret (refProd0 x y / d).toNat
  else if d ≤ refProd1 x y then .raise (.error .resultOverflow)
  else .ret (refNumerator x y d * refInverse (refOdd d)).toNat

end Sys2Proof.Machine
end

