-- ==== Sys2Proof/Safety.lean ====
section
/-! DEFINITION. What counts as a safe run: the responses a conforming unit may give, the invariant of the state between commands, and a run without faults. -/

namespace Sys2Proof.Machine

/-- `R = 0` on every status that is not `OK`, but for the free value of `UnsafeDivByZero` (rule R163). -/
def Response.conforms (x : Response) : Bool :=
  x.status == .ok || x.status == .fault .unsafeDivByZero || x.r == 0

/-- The state between commands: no request at the port (rule R20), at most `MAX_INFLIGHT` requests in flight (rule R9), and every response
not yet taken conforms (rule R163). -/
def State.Inv (s : State) : Prop :=
  s.serving = none ∧ s.inflight.length ≤ Config.maxInflight ∧ ∀ d ∈ s.responses, d.rsp.conforms = true

/-- No response not yet taken carries a fault (rule R162). -/
def State.noFault (s : State) : Bool := s.responses.all fun d => !d.rsp.status.isFault

/-- A safe step: the unit answers, and adds no fault (rules R162, R183, R184). -/
def State.StepSafe (s : State) : Prop := ∃ t, step s = .next t ∧ (s.noFault = true → t.noFault = true)

end Sys2Proof.Machine
end

