-- ==== Sys2Proof/Certificates/Slice0/Obligations.lean ====
section
/-! DEFINITION. The statements for the provers. In each, `q` is the request being served, so `q.req.a`, `q.req.b`, `q.req.c` are the slots `A`, `B`, `C`. -/

open Sys2Proof Sys2Proof.Machine

/-- The next state in which the request being served has its response, and nothing else is changed: the port is free again and ONE response,
addressed to the requester, is added behind those already given (rules R22, R168, R175). -/
abbrev Sys2Proof.Spec.replied (s : State) (q : InFlight) (st : Status) (r : Word) : Host.Outcome State Fault Refusal :=
  .next { s with serving := none, responses := s.responses ++ [{ who := q.who, rsp := { status := st, r := r } }] }

/-- The unit, right after reset and with this one request at its port, answers it with this response (for some place of the free results). -/
abbrev Sys2Proof.Spec.AnswersAlone (req : Request) (rsp : Response) : Prop :=
  ∃ (n : Nat) (t : State),
    step { State.reset with serving := some { who := 0, req := req }, draws := n } = .next t ∧ t.responses = [{ who := 0, rsp := rsp }]

open Sys2Proof.Spec

/-! ## Encoding and decoding -/

/-- Rule R64: the ten legal command words and the commands they stand for; no word with a reserved `OP` is a command. -/
def Obligations.TenCommandWordsDecode : Prop :=
  decode 0x0001 = .legal .msb ∧ decode 0x0002 = .legal .lsb ∧ decode 0x0003 = .legal .udivru ∧
  decode 0x0004 = .legal .muldiv ∧ decode 0x0005 = .legal .muldivru ∧ decode 0x0006 = .legal .adddelta ∧
  decode 0x0007 = .legal .sqrt0Rem ∧ decode 0x0017 = .legal .sqrt0Add ∧
  decode 0x0008 = .legal .sqrt1Rem ∧ decode 0x0018 = .legal .sqrt1Add ∧
  (∀ w : CmdWord, w.toNat % 16 = 0 ∨ 9 ≤ w.toNat % 16 → ∃ why, decode w = .illegal why)

/-- Rule R65: the three tests in their order, read from the word as a number (`OP` its low four bits, `DIR` the next, `RSV` the rest);
a word that passes them is a command with that `OP` and `DIR`, so decoding is total. -/
def Obligations.DecodeTestsFieldsInOrder : Prop :=
  ∀ w : CmdWord,
    (w.toNat / 32 ≠ 0 → decode w = .illegal .reservedBits) ∧
    (w.toNat / 32 = 0 → (w.toNat % 16 = 0 ∨ 9 ≤ w.toNat % 16) → decode w = .illegal .reservedOpcode) ∧
    (w.toNat / 32 = 0 → 1 ≤ w.toNat % 16 → w.toNat % 16 ≤ 6 → w.toNat / 16 % 2 = 1 → decode w = .illegal .directionBit) ∧
    (w.toNat / 32 = 0 → 1 ≤ w.toNat % 16 → w.toNat % 16 ≤ 8 → (w.toNat / 16 % 2 = 1 → 7 ≤ w.toNat % 16) →
      ∃ i : Instr, decode w = .legal i ∧ i.op.toNat = w.toNat % 16 ∧ i.dir.toNat = w.toNat / 16 % 2)

/-- Rule R65: a word is legal exactly when it is one of the ten words of rule R64, and each command has exactly one word. -/
def Obligations.DecodeAcceptsExactlyTheTenWords : Prop :=
  (∀ w : CmdWord, (∃ i, decode w = .legal i) ↔
    w ∈ ([0x0001, 0x0002, 0x0003, 0x0004, 0x0005, 0x0006, 0x0007, 0x0017, 0x0008, 0x0018] : List CmdWord)) ∧
  (∀ (w : CmdWord) (i : Instr), decode w = .legal i ↔ w = encode i)

/-- Rules R63, R65, R70: every illegal encoding raises `IllegalCommand` with `R = 0`, whatever the slots hold; every other word is one of the ten, decodes to the
command with its `OP` and `DIR`, and runs it. -/
def Obligations.IllegalWordsRaiseIllegalCommand : Prop :=
  ∀ (s : State) (q : InFlight), s.serving = some q →
    ((q.req.cmd.toNat % 16 = 0 ∨ 9 ≤ q.req.cmd.toNat % 16 ∨
        (q.req.cmd.toNat / 16 % 2 = 1 ∧ 1 ≤ q.req.cmd.toNat % 16 ∧ q.req.cmd.toNat % 16 ≤ 6) ∨ q.req.cmd.toNat / 32 ≠ 0) →
      step s = replied s q (.fault .illegalCommand) 0) ∧
    (¬(q.req.cmd.toNat % 16 = 0 ∨ 9 ≤ q.req.cmd.toNat % 16 ∨
        (q.req.cmd.toNat / 16 % 2 = 1 ∧ 1 ≤ q.req.cmd.toNat % 16 ∧ q.req.cmd.toNat % 16 ≤ 6) ∨ q.req.cmd.toNat / 32 ≠ 0) →
      q.req.cmd ∈ ([0x0001, 0x0002, 0x0003, 0x0004, 0x0005, 0x0006, 0x0007, 0x0017, 0x0008, 0x0018] : List CmdWord) ∧
      ∃ i, decode q.req.cmd = .legal i ∧ i.op.toNat = q.req.cmd.toNat % 16 ∧ i.dir.toNat = q.req.cmd.toNat / 16 % 2 ∧ step s = exec i s)

/-- Rules R12, R64, R66, R68: a well-formed command, with every operand at every value its slot admits, comes back from the request that issues it. -/
def Obligations.CommandRequestRoundTrip : Prop :=
  ∀ c : Command, c.wf = true → decodeRequest (encodeRequest c) = .command c

/-- Rules R65, R66, R68: what a request decodes to is well-formed, and issuing it again gives the same command word and the same used slots. -/
def Obligations.DecodedRequestReencodes : Prop :=
  ∀ (q : Request) (c : Command), decodeRequest q = .command c →
    c.wf = true ∧ (encodeRequest c).cmd = q.cmd ∧
    (1 ≤ c.instr.operandKinds.length → (encodeRequest c).a = q.a) ∧
    (2 ≤ c.instr.operandKinds.length → (encodeRequest c).b = q.b) ∧
    (3 ≤ c.instr.operandKinds.length → (encodeRequest c).c = q.c)

/-! ## The step -/

/-- Rules R47, R165: a step is `exec` of the decoded command on the state whose port holds the request. The ways a request comes to the port are the model's own
(log entries 2, 4 and 17). -/
def Obligations.StepRunsTheDecodedCommand : Prop :=
  ∀ (s : State) (q : InFlight) (i : Instr), decode q.req.cmd = .legal i →
    ((fetch s).serving = some q → step s = exec i (fetch s)) ∧
    (s.serving = some q → step s = exec i s) ∧
    (s.serving = none → s.inflight = [q] → step s = exec i { s with inflight := [], serving := some q, picks := s.picks + 1 }) ∧
    (step (s.withFetchWord 16 q.req.cmd.toNat) =
      exec i { s with serving := some { who := 0, req := { cmd := q.req.cmd, a := 0, b := 0, c := 0 } } })

/-- Rule R177: with no request the unit does nothing. -/
def Obligations.IdleUnitDoesNothing : Prop :=
  ∀ s : State, s.serving = none → s.inflight = [] → step s = .next s

/-- Rules R48, R175, R187: the request taken to the port is its requester's oldest, whichever requester the free value
picks; the others stay in order. The queue and the free value are the model's (log entries 2 and 6). -/
def Obligations.FetchTakesOldestOfItsRequester : Prop :=
  ∀ s : State, s.serving = none → s.inflight ≠ [] →
    ∃ (before : List InFlight) (q : InFlight) (after : List InFlight),
      s.inflight = before ++ q :: after ∧ (∀ p ∈ before, p.who ≠ q.who) ∧
      fetch s = { s with inflight := before ++ after, serving := some q, picks := s.picks + 1 }

/-- Rule R22: each request yields exactly one response; the step that answers it takes it out of the requests in flight (the queue is the model's, log entry 2). -/
def Obligations.EachRequestYieldsOneResponse : Prop :=
  ∀ s : State, (s.serving ≠ none ∨ s.inflight ≠ []) →
    ∃ (q : InFlight) (rsp : Response) (t : State), step s = .next t ∧
      t.responses = s.responses ++ [{ who := q.who, rsp := rsp }] ∧ t.serving = none ∧
      ((s.serving = some q ∧ t.inflight = s.inflight) ∨
        (s.serving = none ∧ ∃ before after, s.inflight = before ++ q :: after ∧ t.inflight = before ++ after))

/-- Rules R20, R30, R48, R187: in any run, from any state with a free port, every requester gets the responses to its requests in the order of its requests;
each is what that request gets alone after reset, whatever else was in flight; and each step answers one request while any waits. The queue, the response channel
and the choice between requesters are the model's (log entries 2, 3 and 6). -/
def Obligations.RunAnswersEachRequesterInOrder : Prop :=
  ∀ (n : Nat) (s : State), s.serving = none →
    ∃ t : State, Host.Core.run Sys2Proof.core n s = .next t ∧ t.serving = none ∧
      t.inflight.length = s.inflight.length - n ∧
      ∀ w : Requester, ∃ (done : List InFlight) (rs : List Response),
        s.inflight.filter (fun p => p.who == w) = done ++ t.inflight.filter (fun p => p.who == w) ∧
        t.responses.filter (fun d => d.who == w) =
          s.responses.filter (fun d => d.who == w) ++ rs.map (fun r => { who := w, rsp := r }) ∧
        List.Forall₂ (fun p r => AnswersAlone p.req r) done rs

/-- Rule R20: the response is a function of the request alone. Only the `R` of `UnsafeDivByZero`, a free value, may differ
(rule R163; U1; log entries 5 and 12). -/
def Obligations.ResponseDependsOnlyOnTheRequest : Prop :=
  ∀ (s t : State) (q p : InFlight), s.serving = some q → t.serving = some p → q.req = p.req →
    ∃ (x y : Response) (s' t' : State), step s = .next s' ∧ step t = .next t' ∧
      s'.responses = s.responses ++ [{ who := q.who, rsp := x }] ∧ t'.responses = t.responses ++ [{ who := p.who, rsp := y }] ∧
      x.status = y.status ∧ (x.status ≠ .fault .unsafeDivByZero → x.r = y.r)

/-- Rules R67, R163: the response does not depend on a slot the operation does not use, and no value there raises a status. Only the `R` of `UnsafeDivByZero`,
a free value that rule R163 leaves to a draw, may differ (U1; log entries 5 and 12). -/
def Obligations.UnusedSlotsAreNotRead : Prop :=
  ∀ (i : Instr) (s t : State) (q p : InFlight), s.serving = some q → t.serving = some p →
    decode q.req.cmd = .legal i → p.req.cmd = q.req.cmd →
    (1 ≤ i.operandKinds.length → p.req.a = q.req.a) → (2 ≤ i.operandKinds.length → p.req.b = q.req.b) →
    (3 ≤ i.operandKinds.length → p.req.c = q.req.c) →
    ∃ (x y : Response) (s' t' : State), step s = .next s' ∧ step t = .next t' ∧
      s'.responses = s.responses ++ [{ who := q.who, rsp := x }] ∧ t'.responses = t.responses ++ [{ who := p.who, rsp := y }] ∧
      x.status = y.status ∧ (x.status ≠ .fault .unsafeDivByZero → x.r = y.r)

/-- Rules R68, R165: a 128-bit operand slot with a high bit set raises `IllegalOperand` before anything is computed, and nothing else raises it. -/
def Obligations.HighBitsRaiseIllegalOperandFirst : Prop :=
  ∀ (i : Instr) (s : State) (q : InFlight), s.serving = some q → decode q.req.cmd = .legal i →
    (step s = replied s q (.fault .illegalOperand) 0 ↔
      (i = .adddelta ∧ (2 ^ 128 ≤ q.req.a.toNat ∨ 2 ^ 128 ≤ q.req.b.toNat)) ∨
      ((i = .sqrt0Rem ∨ i = .sqrt0Add ∨ i = .sqrt1Rem ∨ i = .sqrt1Add) ∧ 2 ^ 128 ≤ q.req.b.toNat))

/-- Rules R20, R163, R168: what any command changes. The port is freed and one response is added; the requests in flight and the responses already given stay.
Of the model's own counters (no state of the spec), the one of free results advances only for `UnsafeDivByZero` (log entry 5) and the one of choices
stays (log entry 6). With no request a command does nothing (the model's choice, log entry 13). -/
def Obligations.ExecChangesOnlyTheResponse : Prop :=
  ∀ (i : Instr) (s : State),
    (s.serving = none → exec i s = .next s) ∧
    (∀ q : InFlight, s.serving = some q → ∃ (rsp : Response) (t : State), exec i s = .next t ∧
      t.serving = none ∧ t.inflight = s.inflight ∧ t.picks = s.picks ∧
      t.responses = s.responses ++ [{ who := q.who, rsp := rsp }] ∧
      t.draws = (if rsp.status = .fault .unsafeDivByZero then s.draws + 1 else s.draws))

/-! ## Bit scanner -/

/-- Rule R80: `MSB` of zero raises `ZeroHasNoBit`; otherwise it gives the one `i` with `2^i <= x < 2^(i+1)`, which exists. -/
def Obligations.MsbGivesTheHighestSetBit : Prop :=
  encode .msb = 0x0001 ∧
  ∀ (s : State) (q : InFlight), s.serving = some q →
    (q.req.a = 0 → exec .msb s = replied s q (.error .zeroHasNoBit) 0) ∧
    (∀ i : Nat, 2 ^ i ≤ q.req.a.toNat → q.req.a.toNat < 2 ^ (i + 1) → exec .msb s = replied s q .ok (BitVec.ofNat 256 i)) ∧
    (q.req.a ≠ 0 → ∃ i : Nat, i ≤ 255 ∧ 2 ^ i ≤ q.req.a.toNat ∧ q.req.a.toNat < 2 ^ (i + 1))

/-- Rule R81: `LSB` of zero raises `ZeroHasNoBit`; otherwise it gives the one `j` with `x % 2^j = 0` and `x % 2^(j+1) != 0`, which exists. -/
def Obligations.LsbGivesTheLowestSetBit : Prop :=
  encode .lsb = 0x0002 ∧
  ∀ (s : State) (q : InFlight), s.serving = some q →
    (q.req.a = 0 → exec .lsb s = replied s q (.error .zeroHasNoBit) 0) ∧
    (∀ j : Nat, q.req.a.toNat % 2 ^ j = 0 → q.req.a.toNat % 2 ^ (j + 1) ≠ 0 → exec .lsb s = replied s q .ok (BitVec.ofNat 256 j)) ∧
    (q.req.a ≠ 0 → ∃ j : Nat, j ≤ 255 ∧ q.req.a.toNat % 2 ^ j = 0 ∧ q.req.a.toNat % 2 ^ (j + 1) ≠ 0)

/-- Rule R82: the defining properties of both results, and the single-bit values. -/
def Obligations.BitScanDefiningProperties : Prop :=
  ∀ (s : State) (q : InFlight), s.serving = some q →
    (∀ r : Word, exec .msb s = replied s q .ok r → 2 ^ r.toNat ≤ q.req.a.toNat ∧ q.req.a.toNat < 2 ^ (r.toNat + 1)) ∧
    (∀ r : Word, exec .lsb s = replied s q .ok r → q.req.a.toNat % 2 ^ r.toNat = 0 ∧ q.req.a.toNat % 2 ^ (r.toNat + 1) ≠ 0) ∧
    (q.req.a = 0 → exec .msb s = replied s q (.error .zeroHasNoBit) 0 ∧ exec .lsb s = replied s q (.error .zeroHasNoBit) 0) ∧
    (∀ i : Nat, i ≤ 255 → q.req.a = BitVec.ofNat 256 (2 ^ i) → exec .msb s = replied s q .ok (BitVec.ofNat 256 i))

/-- Rule R83: the equivalent description by counts of leading and trailing zeros. -/
def Obligations.BitScanCountsZeros : Prop :=
  ∀ (s : State) (q : InFlight), s.serving = some q → q.req.a ≠ 0 →
    exec .msb s = replied s q .ok (255 - q.req.a.clz) ∧ exec .lsb s = replied s q .ok q.req.a.ctz

/-- The corner case that rule R81 marks as derived from rules R80 and R81: the lowest set bit is at most the highest, with equality exactly for a power of two. -/
def Obligations.LsbAtMostMsb : Prop :=
  ∀ (s : State) (q : InFlight), s.serving = some q → q.req.a ≠ 0 →
    ∃ i j : Word, exec .msb s = replied s q .ok i ∧ exec .lsb s = replied s q .ok j ∧ j.toNat ≤ i.toNat ∧
      (i = j ↔ ∃ k : Nat, q.req.a.toNat = 2 ^ k)

/-! ## Unsafe divider -/

/-- Rules R90, R91, R163: `UDIVRU` with `y != 0` gives the quotient rounded up; with `y = 0` its status is the fault `UnsafeDivByZero` and its `R` is any value.
That the value is `Config.freeResult` at the counter `draws`, which advances, is the model's form of the free value (log entry 5). -/
def Obligations.UdivruRoundsUp : Prop :=
  encode .udivru = 0x0003 ∧
  ∀ (s : State) (q : InFlight), s.serving = some q →
    (q.req.b ≠ 0 →
      exec .udivru s = replied s q .ok (BitVec.ofNat 256 ((q.req.a.toNat + q.req.b.toNat - 1) / q.req.b.toNat))) ∧
    (q.req.b = 0 → exec .udivru s = .next { s with
      serving := none
      responses := s.responses ++ [{ who := q.who, rsp := { status := .fault .unsafeDivByZero, r := Config.freeResult s.draws } }]
      draws := s.draws + 1 })

/-- What rules R90 and R92 mark as derived: for `y != 0` `UDIVRU x, y` and `CDIVRU x, y` (`MULDIVRU x, 1, y`) give the same result, at most `x`, whatever slot `C`
of the first holds; for `y = 0` one answers the fault `UnsafeDivByZero` and the other the error `DivisionByZero`. -/
def Obligations.UdivruAgreesWithCdivru : Prop :=
  ∀ (s t : State) (q p : InFlight), s.serving = some q → t.serving = some p →
    p.req.a = q.req.a → p.req.b = 1 → p.req.c = q.req.b →
    (q.req.b ≠ 0 → ∃ r : Word, exec .udivru s = replied s q .ok r ∧ exec .muldivru t = replied t p .ok r ∧
      r.toNat = (q.req.a.toNat + q.req.b.toNat - 1) / q.req.b.toNat ∧ r.toNat ≤ q.req.a.toNat) ∧
    (q.req.b = 0 →
      (∃ s' : State, ∃ r : Word, exec .udivru s = .next s' ∧
        s'.responses = s.responses ++ [{ who := q.who, rsp := { status := .fault .unsafeDivByZero, r := r } }]) ∧
      exec .muldivru t = replied t p (.error .divisionByZero) 0)

/-! ## Full-precision multiply-divide -/

/-- Rules R100, R103: `MULDIV` gives `floor(x*y/d)` when it fits in 256 bits and `ResultOverflow` otherwise; a zero denominator raises
`DivisionByZero` when the product fits in 256 bits and `ResultOverflow` otherwise. -/
def Obligations.MuldivGivesTheFloor : Prop :=
  encode .muldiv = 0x0004 ∧
  ∀ (s : State) (q : InFlight), s.serving = some q →
    (q.req.c ≠ 0 → q.req.a.toNat * q.req.b.toNat / q.req.c.toNat < 2 ^ 256 →
      exec .muldiv s = replied s q .ok (BitVec.ofNat 256 (q.req.a.toNat * q.req.b.toNat / q.req.c.toNat))) ∧
    (q.req.c ≠ 0 → 2 ^ 256 ≤ q.req.a.toNat * q.req.b.toNat / q.req.c.toNat →
      exec .muldiv s = replied s q (.error .resultOverflow) 0) ∧
    (q.req.c = 0 → q.req.a.toNat * q.req.b.toNat < 2 ^ 256 → exec .muldiv s = replied s q (.error .divisionByZero) 0) ∧
    (q.req.c = 0 → 2 ^ 256 ≤ q.req.a.toNat * q.req.b.toNat → exec .muldiv s = replied s q (.error .resultOverflow) 0)

/-- Rule R101: `MULDIVRU` gives `x*y/d` rounded up; the errors of `MULDIV` come first, then `ResultIsMax` when the floor fits and the ceiling does not. -/
def Obligations.MuldivruGivesTheCeiling : Prop :=
  encode .muldivru = 0x0005 ∧
  ∀ (s : State) (q : InFlight), s.serving = some q →
    (q.req.c ≠ 0 → (q.req.a.toNat * q.req.b.toNat + q.req.c.toNat - 1) / q.req.c.toNat < 2 ^ 256 →
      exec .muldivru s = replied s q .ok (BitVec.ofNat 256 ((q.req.a.toNat * q.req.b.toNat + q.req.c.toNat - 1) / q.req.c.toNat))) ∧
    (q.req.c ≠ 0 → 2 ^ 256 ≤ q.req.a.toNat * q.req.b.toNat / q.req.c.toNat →
      exec .muldivru s = replied s q (.error .resultOverflow) 0) ∧
    (q.req.c ≠ 0 → q.req.a.toNat * q.req.b.toNat / q.req.c.toNat < 2 ^ 256 →
      2 ^ 256 ≤ (q.req.a.toNat * q.req.b.toNat + q.req.c.toNat - 1) / q.req.c.toNat →
      exec .muldivru s = replied s q (.error .resultIsMax) 0) ∧
    (q.req.c = 0 → q.req.a.toNat * q.req.b.toNat < 2 ^ 256 → exec .muldivru s = replied s q (.error .divisionByZero) 0) ∧
    (q.req.c = 0 → 2 ^ 256 ≤ q.req.a.toNat * q.req.b.toNat → exec .muldivru s = replied s q (.error .resultOverflow) 0)

/-- Rule R104, marked as derived from rules R100 and R101: where both succeed the two results differ by 0 or 1, by 1 exactly when there is a remainder; and both commands are symmetric in `x` and `y`,
status included. -/
def Obligations.MuldivAndMuldivruLaws : Prop :=
  ∀ (s t : State) (q p : InFlight), s.serving = some q → t.serving = some p →
    (∀ u v : Word, p.req.a = q.req.a → p.req.b = q.req.b → p.req.c = q.req.c →
      exec .muldiv s = replied s q .ok u → exec .muldivru t = replied t p .ok v →
      (v.toNat = u.toNat ∨ v.toNat = u.toNat + 1) ∧
      (v.toNat = u.toNat + 1 ↔ q.req.a.toNat * q.req.b.toNat % q.req.c.toNat ≠ 0)) ∧
    (p.req.a = q.req.b → p.req.b = q.req.a → p.req.c = q.req.c → ∀ (st : Status) (r : Word),
      (exec .muldiv s = replied s q st r ↔ exec .muldiv t = replied t p st r) ∧
      (exec .muldivru s = replied s q st r ↔ exec .muldivru t = replied t p st r))

/-- Rule R112: the all-maximum case succeeds with `MAX` for both commands. -/
def Obligations.AllMaximumCaseGivesMax : Prop :=
  ∀ (s : State) (q : InFlight), s.serving = some q →
    q.req.a = BitVec.allOnes 256 → q.req.b = BitVec.allOnes 256 → q.req.c = BitVec.allOnes 256 →
    exec .muldiv s = replied s q .ok (BitVec.allOnes 256) ∧ exec .muldivru s = replied s q .ok (BitVec.allOnes 256)

/-- Rule R106, its sentence marked as derived: the checksum and the borrow recover the exact 512-bit product. -/
def Obligations.ReferenceHalvesAreTheProduct : Prop :=
  ∀ x y : Word, (refProd1 x y).toNat * 2 ^ 256 + (refProd0 x y).toNat = x.toNat * y.toNat

/-- Rule R108, its sentence marked as derived: after step 4a the two limbs hold the product less its remainder, a multiple of the denominator. -/
def Obligations.ReferenceSubtractsTheRemainder : Prop :=
  ∀ x y d : Word, d ≠ 0 →
    (refHigh x y d).toNat * 2 ^ 256 + (refLow x y d).toNat = x.toNat * y.toNat - x.toNat * y.toNat % d.toNat ∧
    ((refHigh x y d).toNat * 2 ^ 256 + (refLow x y d).toNat) % d.toNat = 0

/-- Rule R109, its sentences marked as derived: `twos` is the largest power of two that divides the denominator, `d'` is odd, and the low limb then holds the numerator divided by `twos`,
modulo `2^256`. -/
def Obligations.ReferenceTakesOutThePowerOfTwo : Prop :=
  ∀ x y d : Word, d ≠ 0 →
    (∃ k : Nat, k ≤ 255 ∧ (refTwos d).toNat = 2 ^ k) ∧
    (refOdd d).toNat * (refTwos d).toNat = d.toNat ∧ (refOdd d).toNat % 2 = 1 ∧
    (refNumerator x y d).toNat = (x.toNat * y.toNat - x.toNat * y.toNat % d.toNat) / (refTwos d).toNat % 2 ^ 256

/-- Rule R110: the seed `(3 * d') XOR 2` is correct in 4 bits, each step doubles the correct bits, and six steps give the inverse of the odd denominator
modulo `2^256`. -/
def Obligations.ReferenceInverseIsExact : Prop :=
  ∀ d : Word, d.toNat % 2 = 1 →
    refInverse d = (fun v => v * (2 - d * v))^[6] ((3 * d) ^^^ 2) ∧
    (∀ n : Nat, n ≤ 6 → (d * (fun v => v * (2 - d * v))^[n] ((3 * d) ^^^ 2)).toNat % 2 ^ (4 * 2 ^ n) = 1) ∧
    d * refInverse d = 1

/-- Rule R105: the reference algorithm of rules R106 to R111 gives the responses of rules R100 and R101 for every input. -/
def Obligations.ReferenceAlgorithmGivesTheSameResponse : Prop :=
  (∀ x y d : Word, mulDivReference x y d = mulDiv x.toNat y.toNat d.toNat) ∧
  (∀ (s : State) (q : InFlight), s.serving = some q →
    exec .muldiv s = .next (s.complete q.who (mulDivReference q.req.a q.req.b q.req.c)) ∧
    exec .muldivru s = .next (s.complete q.who ((mulDivReference q.req.a q.req.b q.req.c).andThen fun r =>
      if q.req.a.toNat * q.req.b.toNat % q.req.c.toNat = 0 then .ret r
      else if r = 2 ^ 256 - 1 then .raise (.error .resultIsMax) else .ret (r + 1))))

/-- Rule R73: the three pseudo-instructions are spellings of real commands, and, as it marks as derived, what those commands compute on the expanded operands. -/
def Obligations.PseudoInstructionsCompute : Prop :=
  (∀ (bs : List Binding) (x y : AsmOperand),
    assemble bs { mnemonic := .cmul, suffix := none, operands := [x, y] } =
      assemble bs { mnemonic := .muldiv, suffix := none, operands := [x, y, .lit 1] } ∧
    assemble bs { mnemonic := .cdiv, suffix := none, operands := [x, y] } =
      assemble bs { mnemonic := .muldiv, suffix := none, operands := [x, .lit 1, y] } ∧
    assemble bs { mnemonic := .cdivru, suffix := none, operands := [x, y] } =
      assemble bs { mnemonic := .muldivru, suffix := none, operands := [x, .lit 1, y] }) ∧
  (∀ (s : State) (q : InFlight), s.serving = some q →
    (q.req.c = 1 → q.req.a.toNat * q.req.b.toNat < 2 ^ 256 →
      exec .muldiv s = replied s q .ok (BitVec.ofNat 256 (q.req.a.toNat * q.req.b.toNat))) ∧
    (q.req.c = 1 → 2 ^ 256 ≤ q.req.a.toNat * q.req.b.toNat → exec .muldiv s = replied s q (.error .resultOverflow) 0) ∧
    (q.req.b = 1 → q.req.c ≠ 0 → exec .muldiv s = replied s q .ok (BitVec.ofNat 256 (q.req.a.toNat / q.req.c.toNat))) ∧
    (q.req.b = 1 → q.req.c ≠ 0 →
      exec .muldivru s = replied s q .ok (BitVec.ofNat 256 ((q.req.a.toNat + q.req.c.toNat - 1) / q.req.c.toNat))) ∧
    (q.req.b = 1 → q.req.c = 0 →
      exec .muldiv s = replied s q (.error .divisionByZero) 0 ∧ exec .muldivru s = replied s q (.error .divisionByZero) 0))

/-! ## Liquidity delta applier -/

/-- Rules R120, R121: `ADDDELTA` gives the exact sum of the liquidity and the signed delta when it is in `[0, 2^128 - 1]`, and otherwise raises `Underflow`
or `Overflow`; an operand with a high bit set is illegal. The delta is written out as rule R12 defines it. -/
def Obligations.AdddeltaGivesTheExactSum : Prop :=
  encode .adddelta = 0x0006 ∧
  ∀ (s : State) (q : InFlight) (sum : Int), s.serving = some q →
    sum = (q.req.a.toNat : Int) + (if q.req.b.toNat < 2 ^ 127 then (q.req.b.toNat : Int) else (q.req.b.toNat : Int) - 2 ^ 128) →
    (q.req.a.toNat < 2 ^ 128 → q.req.b.toNat < 2 ^ 128 → 0 ≤ sum → sum ≤ 2 ^ 128 - 1 →
      exec .adddelta s = replied s q .ok (BitVec.ofNat 256 sum.toNat)) ∧
    (q.req.a.toNat < 2 ^ 128 → q.req.b.toNat < 2 ^ 128 → sum < 0 → exec .adddelta s = replied s q (.error .underflow) 0) ∧
    (q.req.a.toNat < 2 ^ 128 → q.req.b.toNat < 2 ^ 128 → 2 ^ 128 - 1 < sum → exec .adddelta s = replied s q (.error .overflow) 0) ∧
    ((2 ^ 128 ≤ q.req.a.toNat ∨ 2 ^ 128 ≤ q.req.b.toNat) → exec .adddelta s = replied s q (.fault .illegalOperand) 0)

/-! ## Sqrt-price stepper -/

/-- Rules R130, R131 (90_conflicts.md C3): with an amount of 0 both token0 commands return the starting price when it is within `MAX_U160` and raise
`PriceOverflow` otherwise. -/
def Obligations.Token0ZeroAmountKeepsThePrice : Prop :=
  ∀ (s : State) (q : InFlight) (i : Instr), s.serving = some q → (i = .sqrt0Add ∨ i = .sqrt0Rem) →
    q.req.b.toNat < 2 ^ 128 → q.req.c = 0 →
    (q.req.a.toNat ≤ 2 ^ 160 - 1 → exec i s = replied s q .ok q.req.a) ∧
    (2 ^ 160 - 1 < q.req.a.toNat → exec i s = replied s q (.error .priceOverflow) 0)

/-- Rule R132: `SQRT0.ADD` with an amount of at least 1. `N` is the liquidity shifted left by 96. The exact formula runs where neither `amt * P` nor
`N + amt * P` passes 256 bits; the overflow-safer form runs otherwise, its sum exact. -/
def Obligations.Sqrt0AddSteps : Prop :=
  encode .sqrt0Add = 0x0017 ∧
  ∀ (s : State) (q : InFlight) (P N amt r : Nat), s.serving = some q → q.req.b.toNat < 2 ^ 128 →
    P = q.req.a.toNat → N = q.req.b.toNat * 2 ^ 96 → amt = q.req.c.toNat → 1 ≤ amt →
    (P = 0 → N = 0 → exec .sqrt0Add s = replied s q (.error .divisionByZero) 0) ∧
    (¬(P = 0 ∧ N = 0) →
      r = (if amt * P < 2 ^ 256 ∧ N + amt * P < 2 ^ 256 then (N * P + (N + amt * P) - 1) / (N + amt * P)
        else (N + (N / P + amt) - 1) / (N / P + amt)) →
      (r ≤ 2 ^ 160 - 1 → exec .sqrt0Add s = replied s q .ok (BitVec.ofNat 256 r)) ∧
      (2 ^ 160 - 1 < r → exec .sqrt0Add s = replied s q (.error .priceOverflow) 0))

/-- Rule R133: `SQRT0.REM` with an amount of at least 1, in the order of its tests. -/
def Obligations.Sqrt0RemSteps : Prop :=
  encode .sqrt0Rem = 0x0007 ∧
  ∀ (s : State) (q : InFlight) (P N amt D : Nat), s.serving = some q → q.req.b.toNat < 2 ^ 128 →
    P = q.req.a.toNat → N = q.req.b.toNat * 2 ^ 96 → amt = q.req.c.toNat → 1 ≤ amt → D = N - amt * P →
    ((2 ^ 256 ≤ amt * P ∨ N ≤ amt * P) → exec .sqrt0Rem s = replied s q (.error .productDivAmount) 0) ∧
    (amt * P < 2 ^ 256 → amt * P < N →
      (2 ^ 256 ≤ N * P / D → exec .sqrt0Rem s = replied s q (.error .resultOverflow) 0) ∧
      (N * P / D < 2 ^ 256 → 2 ^ 256 ≤ (N * P + D - 1) / D → exec .sqrt0Rem s = replied s q (.error .resultIsMax) 0) ∧
      ((N * P + D - 1) / D < 2 ^ 256 → 2 ^ 160 - 1 < (N * P + D - 1) / D →
        exec .sqrt0Rem s = replied s q (.error .priceOverflow) 0) ∧
      ((N * P + D - 1) / D ≤ 2 ^ 160 - 1 → exec .sqrt0Rem s = replied s q .ok (BitVec.ofNat 256 ((N * P + D - 1) / D))))

/-- Rule R134, marked as derived from rules R131 to R133: a successful `SQRT0.ADD` gives at most `P`, a successful `SQRT0.REM` at least `P`; neither is below the exact real value `N*P/(N ± amt*P)`,
and with a nonzero amount both are its ceiling but for the fallback path of `SQRT0.ADD`. -/
def Obligations.Token0ResultsRoundUpAndStayOnTheirSide : Prop :=
  ∀ (s : State) (q : InFlight) (P N amt : Nat) (r : Word), s.serving = some q →
    P = q.req.a.toNat → N = q.req.b.toNat * 2 ^ 96 → amt = q.req.c.toNat →
    (exec .sqrt0Add s = replied s q .ok r →
      r.toNat ≤ P ∧ N * P ≤ r.toNat * (N + amt * P) ∧
      (1 ≤ amt → amt * P < 2 ^ 256 → N + amt * P < 2 ^ 256 → ∀ m : Nat, m < r.toNat → m * (N + amt * P) < N * P)) ∧
    (exec .sqrt0Rem s = replied s q .ok r →
      P ≤ r.toNat ∧ N * P ≤ r.toNat * (N - amt * P) ∧
      (1 ≤ amt → ∀ m : Nat, m < r.toNat → m * (N - amt * P) < N * P))

/-- Rule R136: `SQRT1.ADD` adds `floor(amt * 2^96 / L)` to the price, on both of its paths; with no liquidity it raises `DivisionByZero` up to 160-bit amounts and
`ResultOverflow` above. -/
def Obligations.Sqrt1AddSteps : Prop :=
  encode .sqrt1Add = 0x0018 ∧
  ∀ (s : State) (q : InFlight) (P L amt v : Nat), s.serving = some q → q.req.b.toNat < 2 ^ 128 →
    P = q.req.a.toNat → L = q.req.b.toNat → amt = q.req.c.toNat → v = amt * 2 ^ 96 / L →
    (L = 0 → amt ≤ 2 ^ 160 - 1 → exec .sqrt1Add s = replied s q (.error .divisionByZero) 0) ∧
    (L = 0 → 2 ^ 160 - 1 < amt → exec .sqrt1Add s = replied s q (.error .resultOverflow) 0) ∧
    (L ≠ 0 → 2 ^ 256 ≤ v → exec .sqrt1Add s = replied s q (.error .resultOverflow) 0) ∧
    (L ≠ 0 → v < 2 ^ 256 → 2 ^ 160 - 1 < v + P → exec .sqrt1Add s = replied s q (.error .priceOverflow) 0) ∧
    (L ≠ 0 → v + P ≤ 2 ^ 160 - 1 → exec .sqrt1Add s = replied s q .ok (BitVec.ofNat 256 (v + P)))

/-- Rule R137: `SQRT1.REM` takes `ceil(amt * 2^96 / L)` from the price, on both of its paths; with no liquidity it raises
`DivisionByZero` up to 160-bit amounts and `ResultOverflow` above. -/
def Obligations.Sqrt1RemSteps : Prop :=
  encode .sqrt1Rem = 0x0008 ∧
  ∀ (s : State) (q : InFlight) (P L amt v : Nat), s.serving = some q → q.req.b.toNat < 2 ^ 128 →
    P = q.req.a.toNat → L = q.req.b.toNat → amt = q.req.c.toNat → v = (amt * 2 ^ 96 + L - 1) / L →
    (L = 0 → amt ≤ 2 ^ 160 - 1 → exec .sqrt1Rem s = replied s q (.error .divisionByZero) 0) ∧
    (L = 0 → 2 ^ 160 - 1 < amt → exec .sqrt1Rem s = replied s q (.error .resultOverflow) 0) ∧
    (L ≠ 0 → 2 ^ 256 ≤ amt * 2 ^ 96 / L → exec .sqrt1Rem s = replied s q (.error .resultOverflow) 0) ∧
    (L ≠ 0 → amt * 2 ^ 96 / L < 2 ^ 256 → P ≤ v → exec .sqrt1Rem s = replied s q (.error .priceUnderflow) 0) ∧
    (L ≠ 0 → v < P → 2 ^ 160 - 1 < P - v → exec .sqrt1Rem s = replied s q (.error .priceOverflow) 0) ∧
    (L ≠ 0 → v < P → P - v ≤ 2 ^ 160 - 1 → exec .sqrt1Rem s = replied s q .ok (BitVec.ofNat 256 (P - v)))

/-- Rule R138, marked as derived: the 160-bit threshold changes no answer: each direction answers as if the full-precision operation were used for every amount, and for `L != 0`
the direct path gives the floor and the ceiling of `amt * 2^96 / L`. -/
def Obligations.Token1PathsAgree : Prop :=
  ∀ l amt : Nat,
    token1QuotientDown l amt = mulDiv amt (2 ^ 96) l ∧ token1QuotientUp l amt = mulDivRoundUp amt (2 ^ 96) l ∧
    (l ≠ 0 → amt ≤ 2 ^ 160 - 1 →
      token1QuotientDown l amt = .ret (amt * 2 ^ 96 / l) ∧ token1QuotientUp l amt = .ret ((amt * 2 ^ 96 + l - 1) / l))

/-- Rule R139, its token1 sentence marked as derived: adding then removing the same token1 amount, when both succeed, gives the starting price or one less; for token0 the rule's own example drifts by 7. -/
def Obligations.Token1RoundTripWithinOne : Prop :=
  (∀ (s t : State) (q p : InFlight) (u v : Word), s.serving = some q → t.serving = some p →
    p.req.b = q.req.b → p.req.c = q.req.c → p.req.a = u →
    exec .sqrt1Add s = replied s q .ok u → exec .sqrt1Rem t = replied t p .ok v →
    v.toNat = q.req.a.toNat ∨ v.toNat + 1 = q.req.a.toNat) ∧
  nextSqrtPriceFromAmount0RoundingUp (2 ^ 96) 1 2 true = .ret 26409387504754779197847983446 ∧
  nextSqrtPriceFromAmount0RoundingUp 26409387504754779197847983446 1 2 false = .ret (2 ^ 96 + 7)

/-- Rule R130: every successful stepper result is at most `MAX_U160`, whatever price it started from. -/
def Obligations.StepperResultsFitIn160Bits : Prop :=
  ∀ (i : Instr) (s : State) (q : InFlight) (r : Word), s.serving = some q →
    (i = .sqrt0Add ∨ i = .sqrt0Rem ∨ i = .sqrt1Add ∨ i = .sqrt1Rem) →
    exec i s = replied s q .ok r → r.toNat ≤ 2 ^ 160 - 1

/-! ## Statuses and results -/

/-- Rule R164: no status has a reserved code. With it the code of every status, as the table of rule R160 numbers them, and the way back. -/
def Obligations.StatusCodesAreThoseOfTheTable : Prop :=
  Status.ok.code = 0 ∧ (Status.error .zeroHasNoBit).code = 1 ∧ (Status.error .divisionByZero).code = 2 ∧
  (Status.error .resultOverflow).code = 3 ∧ (Status.error .resultIsMax).code = 4 ∧ (Status.error .productDivAmount).code = 5 ∧
  (Status.error .priceOverflow).code = 6 ∧ (Status.error .priceUnderflow).code = 7 ∧ (Status.error .overflow).code = 8 ∧
  (Status.error .underflow).code = 9 ∧ (Status.fault .unsafeDivByZero).code = 12 ∧ (Status.fault .illegalOperand).code = 13 ∧
  (Status.fault .illegalCommand).code = 15 ∧
  (∀ st : Status, st.code ≠ 10 ∧ st.code ≠ 11 ∧ st.code ≠ 14 ∧ Status.ofCode? st.code = some st)

/-- Rule R160 and the "Status written" lines of rules R80 to R137: the statuses each command can write, and no others;
that `PriceOverflow` of two commands needs a starting price above the bound is marked as derived in rules R132 and R137. -/
def Obligations.EachCommandWritesOnlyItsStatuses : Prop :=
  ∀ (s : State) (q : InFlight), s.serving = some q →
    ∀ (i : Instr) (t : State) (rsp : Response), exec i s = .next t → t.responses = s.responses ++ [{ who := q.who, rsp := rsp }] →
      rsp.status = .ok ∨
      (match i with
      | .msb => rsp.status = .error .zeroHasNoBit
      | .lsb => rsp.status = .error .zeroHasNoBit
      | .udivru => rsp.status = .fault .unsafeDivByZero
      | .muldiv => rsp.status = .error .divisionByZero ∨ rsp.status = .error .resultOverflow
      | .muldivru => rsp.status = .error .divisionByZero ∨ rsp.status = .error .resultOverflow ∨ rsp.status = .error .resultIsMax
      | .adddelta => rsp.status = .error .underflow ∨ rsp.status = .error .overflow ∨ rsp.status = .fault .illegalOperand
      | .sqrt0Rem => rsp.status = .error .productDivAmount ∨ rsp.status = .error .resultOverflow ∨ rsp.status = .error .resultIsMax ∨
          rsp.status = .error .priceOverflow ∨ rsp.status = .fault .illegalOperand
      | .sqrt0Add => rsp.status = .error .divisionByZero ∨ (rsp.status = .error .priceOverflow ∧ 2 ^ 160 - 1 < q.req.a.toNat) ∨
          rsp.status = .fault .illegalOperand
      | .sqrt1Rem => rsp.status = .error .divisionByZero ∨ rsp.status = .error .resultOverflow ∨ rsp.status = .error .priceUnderflow ∨
          (rsp.status = .error .priceOverflow ∧ 2 ^ 160 - 1 < q.req.a.toNat) ∨ rsp.status = .fault .illegalOperand
      | .sqrt1Add => rsp.status = .error .divisionByZero ∨ rsp.status = .error .resultOverflow ∨ rsp.status = .error .priceOverflow ∨
          rsp.status = .fault .illegalOperand)

/-- Rule R163: `R = 0` on every status that is not `OK`, but for `UnsafeDivByZero`, whose `R` is a free value drawn for that response alone (log entry 5). -/
def Obligations.NonOkResultIsZero : Prop :=
  ∀ (s : State) (q : InFlight), s.serving = some q →
    ∃ (rsp : Response) (t : State), step s = .next t ∧ t.responses = s.responses ++ [{ who := q.who, rsp := rsp }] ∧
      (rsp.status ≠ .ok → rsp.status ≠ .fault .unsafeDivByZero → rsp.r = 0) ∧
      (rsp.status = .fault .unsafeDivByZero → rsp.r = Config.freeResult s.draws ∧ t.draws = s.draws + 1)

/-- Rules R45, R69: a bit index is below 256 and a liquidity below `2^128`, so the other bits of `R` are zero. -/
def Obligations.NarrowResultsAreZeroExtended : Prop :=
  ∀ (s : State) (q : InFlight) (r : Word), s.serving = some q →
    (exec .msb s = replied s q .ok r → r.toNat < 256) ∧ (exec .lsb s = replied s q .ok r → r.toNat < 256) ∧
    (exec .adddelta s = replied s q .ok r → r.toNat < 2 ^ 128)

/-- Rules R162, R183, R184: a request is answered with a fault exactly when it breaks an obligation of the host. -/
def Obligations.FaultExactlyOnABrokenObligation : Prop :=
  ∀ (s : State) (q : InFlight), s.serving = some q →
    ∃ (rsp : Response) (t : State), step s = .next t ∧ t.responses = s.responses ++ [{ who := q.who, rsp := rsp }] ∧
      (rsp.status.isFault = false ↔ q.req.wf = true)

/-! ## The state between commands, reset and the host -/

/-- The invariant at reset (rules R20, R31). -/
def Obligations.ResetMeetsTheInvariant : Prop := State.reset.Inv

/-- Rules R9, R20, R163: every step keeps the invariant: no request stays at the port, no more than `MAX_INFLIGHT` are in flight, and every response conforms
(the queue and the counting are the model's, log entries 2 and 7). -/
def Obligations.StepKeepsTheInvariant : Prop :=
  ∀ s : State, s.Inv → ∃ t : State, step s = .next t ∧ t.Inv

/-- Rules R9, R23, R180, R187: what the host does at the interface keeps the invariant too (the queue and the counting are the model's, log entries 2, 7 and 10). -/
def Obligations.HostActionsKeepTheInvariant : Prop :=
  ∀ s : State, s.Inv →
    (∀ p : InFlight, (s.accept p).Inv) ∧ s.assertReset.Inv ∧
    (∀ (w : Requester) (rsp : Response) (t : State), s.takeResponse w = .response rsp t → rsp.conforms = true ∧ t.Inv) ∧
    (∀ (w : Requester) (f : Fault) (t : State), s.takeResponse w = .failed f t → t.Inv)

/-- Rules R31, R180, R181: reset discards everything not yet answered and not yet delivered; no response is ever given for it, and the unit accepts a request
again. That untaken responses go too is the model's reading (log entry 10). -/
def Obligations.ResetDiscardsUnansweredRequests : Prop :=
  ∀ s : State, s.assertReset.inflight = [] ∧ s.assertReset.serving = none ∧ s.assertReset.rspValid = false ∧
    step s.assertReset = .next s.assertReset ∧
    (∀ p : InFlight, (s.assertReset.accept p).inflight = [p])

/-- Rules R9, R188: the OPEN parameters have the bounds the rules give, and a request is taken exactly while fewer than `MAX_INFLIGHT` are in flight
(rule R23; what counts as in flight is the model's choice, log entry 7). -/
def Obligations.OpenParametersAndAcceptance : Prop :=
  1 ≤ Config.maxInflight ∧ (∀ (cmd : CmdWord) (a b c : Word), 1 ≤ Config.latency cmd a b c) ∧
  (∀ (s : State) (p : InFlight),
    (s.inflight.length < Config.maxInflight → s.accept p = { s with inflight := s.inflight ++ [p] }) ∧
    (Config.maxInflight ≤ s.inflight.length → s.accept p = s))

/-- Rules R162, R175, R187: a requester takes its own oldest response, and nothing else is changed; a fault is never handed over as a response, it fails the
requester's run; it finds none exactly when none is addressed to it (requesters are the model's tags, log entry 3; the failed run is the host's, log entry 1). -/
def Obligations.TakenResponseIsTheRequestersOldest : Prop :=
  ∀ (s : State) (w : Requester),
    (∀ (rsp : Response) (t : State), s.takeResponse w = .response rsp t → rsp.status.isFault = false ∧
      ∃ before after : List Addressed, s.responses = before ++ { who := w, rsp := rsp } :: after ∧ (∀ d ∈ before, d.who ≠ w) ∧
        t = { s with responses := before ++ after }) ∧
    (∀ (f : Fault) (t : State), s.takeResponse w = .failed f t →
      ∃ (r : Word) (before after : List Addressed), s.responses = before ++ { who := w, rsp := { status := .fault f, r := r } } :: after ∧
        (∀ d ∈ before, d.who ≠ w) ∧ t = { s with responses := before ++ after }) ∧
    (s.takeResponse w = .nothing ↔ ∀ d ∈ s.responses, d.who ≠ w)

/-- Rule R74: the host binds each response to its name, goes on after `OK`, and stops after an error unless the line says otherwise
(the host and its state are the model's, log entries 9, 14, 15 and 17). -/
def Obligations.HostBindsAndStops : Prop :=
  ∀ (name : ResultName) (cmd : HostCommand) (goesOn : Bool) (h : HostState) (q : Request) (rsp : Response) (u : State),
    h.run = .going → cmd.request h.bindings = .request q → transact h.unit { who := 0, req := q } = .response rsp u →
    ((HostProgram.issue name cmd goesOn).run h).unit = u ∧
    ((HostProgram.issue name cmd goesOn).run h).bindings = { name := name, rsp := rsp } :: h.bindings ∧
    (rsp.status = .ok → ((HostProgram.issue name cmd goesOn).run h).run = .going) ∧
    (∀ e : Error, rsp.status = .error e → ((HostProgram.issue name cmd goesOn).run h).run = if goesOn then .going else .stopped)

/-- Rules R47, R74, R162: a host's command is one transaction: what comes back is the response of the step on its request, a failed run where that is a fault, and
the unit is left with nothing of it at its port (the model's reading, log entries 1 and 15). From any state of the unit it goes before its requester's own
outstanding requests and responses, which is the model's choice (log entry 17). -/
def Obligations.TransactionAnswersTheHostsRequest : Prop :=
  ∀ (u : State) (p : InFlight), ∃ (rsp : Response) (v t : State),
    (rsp.status.isFault = false → transact u p = .response rsp v) ∧ (∀ f : Fault, rsp.status = .fault f → transact u p = .failed f v) ∧
    step { u with serving := some p } = .next t ∧ t.responses = u.responses ++ [{ who := p.who, rsp := rsp }] ∧
    v.responses = u.responses ∧ v.serving = none ∧ v.inflight = u.inflight

/-- Rules R91, R162, R183, R184: a host may issue any request as a raw one. One that breaks an obligation of the host fails its run, even on a line that would go on:
the run's outcome is the fault that rule R162 names for the obligation, nothing is bound, and no program goes on from there. One that breaks none fails no run
(the failed run is the host's, log entry 1; from which states it starts is the model's choice, log entry 17). -/
def Obligations.FaultFailsTheHostsRun : Prop :=
  (∀ (bs : List Binding) (q : Request), (HostCommand.raw q).request bs = .request q) ∧
  ∀ (name : ResultName) (cmd : HostCommand) (goesOn : Bool) (h : HostState) (q : Request),
    h.run = .going → cmd.request h.bindings = .request q →
    (q.wf = false → ∃ f : Fault,
      ((HostProgram.issue name cmd goesOn).run h).outcome = .fault f ∧
      ((HostProgram.issue name cmd goesOn).run h).bindings = h.bindings ∧
      (q.legalWord = false → f = .illegalCommand) ∧ (q.legalWord = true → q.operandsInRange = false → f = .illegalOperand) ∧
      (q.legalWord = true → q.operandsInRange = true → f = .unsafeDivByZero) ∧
      (∀ rest : HostProgram, (HostProgram.seq (.issue name cmd goesOn) rest).run h = (HostProgram.issue name cmd goesOn).run h)) ∧
    (q.wf = true →
      ((HostProgram.issue name cmd goesOn).run h).outcome = .next ((HostProgram.issue name cmd goesOn).run h))

/-- Rules R162, R175: in the run of a requester's program over any requests in flight, a step that answers it a request which breaks an obligation of the host is
a fault of that run; every other step is the unit's own, another requester's fault included (the failed run is the host's, log entry 1). -/
def Obligations.HostStepFailsOnItsOwnFault : Prop :=
  ∀ (w : Requester) (s : State) (q : InFlight), s.serving = some q →
    (q.who = w → q.req.wf = false → ∃ f : Fault, hostStep w s = .fault f ∧
      ∃ (t : State) (r : Word), step s = .next t ∧ t.responses = s.responses ++ [{ who := w, rsp := { status := .fault f, r := r } }]) ∧
    ((q.who ≠ w ∨ q.req.wf = true) → hostStep w s = step s)

/-- Rule R162: over any number of steps the run of a requester's program stops at a fault exactly when the unit answers it one in those steps, and otherwise it is the
unit's run (the failed run is the host's, log entry 1; the queue is the model's, log entry 2). -/
def Obligations.HostRunFailsExactlyAtItsFault : Prop :=
  ∀ (w : Requester) (n : Nat) (s : State), ∃ t : State, Host.Core.run Sys2Proof.core n s = .next t ∧
    ((∀ d ∈ t.responses.drop s.responses.length, d.who = w → d.rsp.status.isFault = false) ∧
        Host.Core.run (hostCore w) n s = .next t ∨
      ∃ f : Fault, (∃ d ∈ t.responses.drop s.responses.length, d.who = w ∧ d.rsp.status = .fault f) ∧
        Host.Core.run (hostCore w) n s = .fault f)
end

