-- ==== Sys2Proof/Laws/Arith.lean ====
section
/-! SUPPORT. What the exact routines answer: one lemma for each, cited by later proofs instead of its definition. -/

namespace Sys2Proof.Machine

/-! ### Exact division rounded up (rule R10) -/

@[simp] theorem ceilDiv_zero_left (y : Nat) : ceilDiv 0 y = 0 := by simp [ceilDiv]

/-- Rounding up, as a floor. -/
theorem ceilDiv_eq_div (x y : Nat) (hy : 0 < y) : ceilDiv x y = (x + y - 1) / y := by
  have hr := Nat.mod_lt x hy
  have hx : x + y - 1 = (x % y + y - 1) + y * (x / y) := by have := Nat.div_add_mod x y; omega
  rw [hx, Nat.add_mul_div_left _ _ hy, ceilDiv]
  by_cases h : x % y = 0
  · rw [if_neg (not_not.2 h), h, Nat.zero_add, Nat.div_eq_of_lt (Nat.sub_lt hy Nat.one_pos), Nat.add_comm]
  · rw [if_pos h, Nat.add_comm]
    congr 1
    exact ((Nat.div_eq_iff hy).2 (by omega)).symm

/-- The adjunction that makes it the ceiling. -/
theorem ceilDiv_le_iff (x y k : Nat) (hy : 0 < y) : ceilDiv x y ≤ k ↔ x ≤ k * y := by
  rw [ceilDiv_eq_div x y hy, ← Nat.lt_succ_iff, Nat.div_lt_iff_lt_mul hy, Nat.succ_mul]
  omega

theorem le_ceilDiv_mul (x y : Nat) (hy : 0 < y) : x ≤ ceilDiv x y * y := (ceilDiv_le_iff x y _ hy).1 le_rfl

theorem div_le_ceilDiv (x y : Nat) : x / y ≤ ceilDiv x y := Nat.le_add_right _ _

theorem ceilDiv_le_div_add_one (x y : Nat) : ceilDiv x y ≤ x / y + 1 := by unfold ceilDiv; split <;> omega

/-! ### Propagation (rule R166) -/

@[simp] theorem andThen_ret (v : Nat) (f : Nat → Answer) : (Answer.ret v).andThen f = f v := rfl
@[simp] theorem andThen_raise (e : Raise) (f : Nat → Answer) : (Answer.raise e).andThen f = .raise e := rfl

/-- A routine that succeeds after a call succeeded in the call. -/
theorem andThen_eq_ret {x : Answer} {f : Nat → Answer} {v : Nat} (h : x.andThen f = .ret v) : ∃ u, x = .ret u ∧ f u = .ret v := by
  cases x with
  | ret u => exact ⟨u, rfl, h⟩
  | raise e => cases h

/-- A status after a call is the callee's, or is raised on its result. -/
theorem andThen_eq_raise {x : Answer} {f : Nat → Answer} {e : Raise} (h : x.andThen f = .raise e) :
    x = .raise e ∨ ∃ u, x = .ret u ∧ f u = .raise e := by
  cases x with
  | ret u => exact .inr ⟨u, rfl, h⟩
  | raise e' => exact .inl h

/-! ### Unsafe divider (rules R90, R91) -/

@[simp] theorem unsafeDivRoundUp_zero (x : Nat) : unsafeDivRoundUp x 0 = .raise (.fault .unsafeDivByZero) := rfl

theorem unsafeDivRoundUp_pos {x y : Nat} (hy : y ≠ 0) : unsafeDivRoundUp x y = .ret (ceilDiv x y) := by
  simp [unsafeDivRoundUp, hy]

/-! ### Multiply-divide (rules R100-R103) -/

/-- The high half of the product is below the denominator exactly when the quotient fits in 256 bits. -/
theorem high_lt_iff_quotient_fits (p d : Nat) (hd : d ≠ 0) : p / 2 ^ 256 < d ↔ p / d < 2 ^ 256 := by
  rw [Nat.div_lt_iff_lt_mul (by decide), Nat.div_lt_iff_lt_mul (Nat.pos_of_ne_zero hd), Nat.mul_comm]

theorem mulDiv_fits {x y d : Nat} (hd : d ≠ 0) (h : x * y / d < 2 ^ 256) : mulDiv x y d = .ret (x * y / d) := by
  have hhi := (high_lt_iff_quotient_fits (x * y) d hd).2 h
  unfold mulDiv
  by_cases h0 : x * y / 2 ^ 256 = 0
  · have hlt : x * y < 2 ^ 256 := (Nat.div_eq_zero_iff.1 h0).resolve_left (by decide)
    rw [if_pos h0, if_neg hd, Nat.mod_eq_of_lt hlt]
  · rw [if_neg h0, if_neg (Nat.not_le.2 hhi)]

theorem mulDiv_overflows {x y d : Nat} (hd : d ≠ 0) (h : 2 ^ 256 ≤ x * y / d) : mulDiv x y d = .raise (.error .resultOverflow) := by
  have hhi : d ≤ x * y / 2 ^ 256 := Nat.not_lt.1 fun h' => Nat.not_le.2 ((high_lt_iff_quotient_fits _ d hd).1 h') h
  unfold mulDiv
  rw [if_neg (by omega), if_pos hhi]

theorem mulDiv_zero_fits {x y : Nat} (h : x * y < 2 ^ 256) : mulDiv x y 0 = .raise (.error .divisionByZero) := by
  unfold mulDiv
  rw [if_pos (Nat.div_eq_of_lt h), if_pos rfl]

theorem mulDiv_zero_overflows {x y : Nat} (h : 2 ^ 256 ≤ x * y) : mulDiv x y 0 = .raise (.error .resultOverflow) := by
  have : x * y / 2 ^ 256 ≠ 0 := Nat.ne_of_gt (Nat.div_pos h (by decide))
  unfold mulDiv
  rw [if_neg this, if_pos (Nat.zero_le _)]

/-- Everything `mul_div` can answer. -/
theorem mulDiv_cases (x y d : Nat) :
    (d ≠ 0 ∧ x * y / d < 2 ^ 256 ∧ mulDiv x y d = .ret (x * y / d)) ∨
    (d = 0 ∧ x * y < 2 ^ 256 ∧ mulDiv x y d = .raise (.error .divisionByZero)) ∨
    ((d = 0 → 2 ^ 256 ≤ x * y) ∧ (d ≠ 0 → 2 ^ 256 ≤ x * y / d) ∧ mulDiv x y d = .raise (.error .resultOverflow)) := by
  by_cases hd : d = 0
  · subst hd
    by_cases h : x * y < 2 ^ 256
    · exact .inr (.inl ⟨rfl, h, mulDiv_zero_fits h⟩)
    · exact .inr (.inr ⟨fun _ => Nat.not_lt.1 h, fun h => absurd rfl h, mulDiv_zero_overflows (Nat.not_lt.1 h)⟩)
  · by_cases h : x * y / d < 2 ^ 256
    · exact .inl ⟨hd, h, mulDiv_fits hd h⟩
    · exact .inr (.inr ⟨fun h => absurd h hd, fun _ => Nat.not_lt.1 h, mulDiv_overflows hd (Nat.not_lt.1 h)⟩)

/-- `mul_div_round_up` through the floor: the ceiling, or `ResultIsMax` where it does not fit (rule R101). -/
theorem mulDivRoundUp_of_ret {x y d r : Nat} (h : mulDiv x y d = .ret r) :
    r = x * y / d ∧ d ≠ 0 ∧ r < 2 ^ 256 ∧
    ((ceilDiv (x * y) d < 2 ^ 256 ∧ mulDivRoundUp x y d = .ret (ceilDiv (x * y) d)) ∨
     (ceilDiv (x * y) d = 2 ^ 256 ∧ mulDivRoundUp x y d = .raise (.error .resultIsMax))) := by
  obtain ⟨hd, hlt, he⟩ | ⟨_, _, he⟩ | ⟨_, _, he⟩ := mulDiv_cases x y d
  · rw [h] at he
    cases he
    refine ⟨rfl, hd, hlt, ?_⟩
    unfold mulDivRoundUp ceilDiv
    rw [h, andThen_ret]
    by_cases hr : x * y % d = 0
    · rw [if_neg (not_not.2 hr), if_neg (not_not.2 hr)]
      exact .inl ⟨hlt, rfl⟩
    · rw [if_pos hr, if_pos hr]
      by_cases hm : x * y / d = Config.maxU256
      · rw [if_pos hm]
        exact .inr ⟨by rw [hm]; rfl, rfl⟩
      · rw [if_neg hm]
        refine .inl ⟨?_, rfl⟩
        have : Config.maxU256 = 2 ^ 256 - 1 := rfl
        omega
  · rw [h] at he; cases he
  · rw [h] at he; cases he

theorem mulDivRoundUp_of_raise {x y d : Nat} {e : Raise} (h : mulDiv x y d = .raise e) : mulDivRoundUp x y d = .raise e := by
  simp [mulDivRoundUp, h]

/-! ### Price check (rule R130) -/

theorem checkPrice_fits {p : Nat} (h : p ≤ Config.maxU160) : checkPrice p = .ret p := by simp [checkPrice, Nat.not_lt.2 h]

theorem checkPrice_overflows {p : Nat} (h : Config.maxU160 < p) : checkPrice p = .raise (.error .priceOverflow) := by simp [checkPrice, h]

/-- Everything `check_price` can answer. -/
theorem checkPrice_cases (p : Nat) :
    (p ≤ Config.maxU160 ∧ checkPrice p = .ret p) ∨ (Config.maxU160 < p ∧ checkPrice p = .raise (.error .priceOverflow)) := by
  by_cases h : p ≤ Config.maxU160
  · exact .inl ⟨h, checkPrice_fits h⟩
  · exact .inr ⟨Nat.not_le.1 h, checkPrice_overflows (Nat.not_le.1 h)⟩

theorem checkPrice_eq_ret {p v : Nat} (h : checkPrice p = .ret v) : v = p ∧ p ≤ Config.maxU160 := by
  obtain ⟨hp, he⟩ | ⟨_, he⟩ := checkPrice_cases p <;> rw [he] at h <;> cases h
  exact ⟨rfl, hp⟩

end Sys2Proof.Machine
end

