-- ==== Sys2Proof/Laws/State.lean ====
section
/-! SUPPORT. One lemma for each field of each update of the state, so that no later proof unfolds a record update. -/

namespace Sys2Proof.Machine

section Complete
variable (s : State) (w : Requester) (x : Answer)

@[simp] theorem complete_inflight : (s.complete w x).inflight = s.inflight := rfl
@[simp] theorem complete_serving : (s.complete w x).serving = none := rfl
@[simp] theorem complete_responses :
    (s.complete w x).responses = s.responses ++ [{ who := w, rsp := x.response (Config.freeResult s.draws) }] := rfl
@[simp] theorem complete_draws : (s.complete w x).draws = s.draws + x.drawsUsed := rfl
@[simp] theorem complete_picks : (s.complete w x).picks = s.picks := rfl

end Complete

section Reset
variable (s : State)

@[simp] theorem reset_inflight : State.reset.inflight = [] := rfl
@[simp] theorem reset_serving : State.reset.serving = none := rfl
@[simp] theorem reset_responses : State.reset.responses = [] := rfl

@[simp] theorem assertReset_inflight : s.assertReset.inflight = [] := rfl
@[simp] theorem assertReset_serving : s.assertReset.serving = none := rfl
@[simp] theorem assertReset_responses : s.assertReset.responses = [] := rfl
@[simp] theorem assertReset_draws : s.assertReset.draws = s.draws := rfl
@[simp] theorem assertReset_picks : s.assertReset.picks = s.picks := rfl

end Reset

section Accept
variable (s : State) (p : InFlight)

theorem accept_of_ready (h : s.inflight.length < Config.maxInflight) : s.accept p = { s with inflight := s.inflight ++ [p] } := by
  simp [State.accept, State.reqReady, h]

theorem accept_of_full (h : ¬s.inflight.length < Config.maxInflight) : s.accept p = s := by
  simp [State.accept, State.reqReady, h]

@[simp] theorem accept_serving : (s.accept p).serving = s.serving := by unfold State.accept; split <;> rfl
@[simp] theorem accept_responses : (s.accept p).responses = s.responses := by unfold State.accept; split <;> rfl
@[simp] theorem accept_draws : (s.accept p).draws = s.draws := by unfold State.accept; split <;> rfl
@[simp] theorem accept_picks : (s.accept p).picks = s.picks := by unfold State.accept; split <;> rfl

end Accept

section WithFetchWord
variable (s : State) (nbits w : Nat)

@[simp] theorem withFetchWord_serving : (s.withFetchWord nbits w).serving =
    some { who := 0, req := { cmd := BitVec.ofNat 16 (w % 2 ^ nbits), a := 0, b := 0, c := 0 } } := rfl
@[simp] theorem withFetchWord_inflight : (s.withFetchWord nbits w).inflight = s.inflight := rfl
@[simp] theorem withFetchWord_responses : (s.withFetchWord nbits w).responses = s.responses := rfl
@[simp] theorem withFetchWord_draws : (s.withFetchWord nbits w).draws = s.draws := rfl
@[simp] theorem withFetchWord_picks : (s.withFetchWord nbits w).picks = s.picks := rfl

end WithFetchWord

end Sys2Proof.Machine
end

