-- ==== Sys2Proof/Laws/Ops.lean ====
section
/-! SUPPORT. What the shared operations do: the operand check, answering a request, running a command, taking the next request, one step. -/

namespace Sys2Proof.Machine

/-! ### Slots (rules R12, R68) -/

theorem lowHalf_eq_mod (w : Word) : lowHalf w = w.toNat % 2 ^ 128 := by
  simp [lowHalf]

theorem highHalfZero_iff (w : Word) : highHalfZero w = true ↔ w.toNat < 2 ^ 128 := by
  have hw : w.toNat / 2 ^ 128 < 2 ^ 128 := Nat.div_lt_of_lt_mul (by have := w.isLt; omega)
  rw [highHalfZero, beq_iff_eq, ← BitVec.toNat_inj]
  simp only [BitVec.extractLsb'_toNat, Nat.shiftRight_eq_div_pow, BitVec.toNat_ofNat, Nat.zero_mod, Nat.mod_eq_of_lt hw]
  rw [Nat.div_eq_zero_iff]
  omega

theorem lowHalf_of_highHalfZero {w : Word} (h : highHalfZero w = true) : lowHalf w = w.toNat := by
  rw [lowHalf_eq_mod, Nat.mod_eq_of_lt ((highHalfZero_iff w).1 h)]

/-! ### Responses (rules R69, R163) -/

@[simp] theorem response_ret (v : Nat) (x : Word) : (Answer.ret v).response x = { status := .ok, r := BitVec.ofNat 256 v } := rfl
@[simp] theorem response_error (e : Error) (x : Word) : (Answer.raise (.error e)).response x = { status := .error e, r := 0 } := rfl
@[simp] theorem response_illegalOperand (x : Word) :
    (Answer.raise (.fault .illegalOperand)).response x = { status := .fault .illegalOperand, r := 0 } := rfl
@[simp] theorem response_illegalCommand (x : Word) :
    (Answer.raise (.fault .illegalCommand)).response x = { status := .fault .illegalCommand, r := 0 } := rfl
@[simp] theorem response_unsafeDivByZero (x : Word) :
    (Answer.raise (.fault .unsafeDivByZero)).response x = { status := .fault .unsafeDivByZero, r := x } := rfl

/-- The status of a response is that of the answer, whatever the free value. -/
theorem response_status (x : Answer) (u : Word) :
    (x.response u).status = match x with | .ret _ => .ok | .raise e => e.status := by
  rcases x with _ | ⟨_ | ⟨_ | _ | _⟩⟩ <;> rfl

/-- Only the response of `UnsafeDivByZero` reads the free value. -/
theorem response_eq_of_ne {x : Answer} (h : x ≠ .raise (.fault .unsafeDivByZero)) (u v : Word) : x.response u = x.response v := by
  rcases x with _ | ⟨_ | ⟨_ | _ | _⟩⟩ <;> first | rfl | exact absurd rfl h

theorem drawsUsed_eq (x : Answer) : x.drawsUsed = if x = .raise (.fault .unsafeDivByZero) then 1 else 0 := by
  rcases x with _ | ⟨_ | ⟨_ | _ | _⟩⟩ <;> simp [Answer.drawsUsed]

/-- Every answer but `UnsafeDivByZero` only frees the port and adds the response. -/
theorem complete_of_ne {x : Answer} (s : State) (w : Requester) (h : x ≠ .raise (.fault .unsafeDivByZero)) (u : Word) :
    s.complete w x = { s with serving := none, responses := s.responses ++ [{ who := w, rsp := x.response u }] } := by
  simp [State.complete, drawsUsed_eq, h, response_eq_of_ne h (Config.freeResult s.draws) u]

@[simp] theorem complete_ret (s : State) (w : Requester) (v : Nat) : s.complete w (.ret v) =
    { s with serving := none, responses := s.responses ++ [{ who := w, rsp := { status := .ok, r := BitVec.ofNat 256 v } }] } := rfl

@[simp] theorem complete_error (s : State) (w : Requester) (e : Error) : s.complete w (.raise (.error e)) =
    { s with serving := none, responses := s.responses ++ [{ who := w, rsp := { status := .error e, r := 0 } }] } := rfl

@[simp] theorem complete_illegalOperand (s : State) (w : Requester) : s.complete w (.raise (.fault .illegalOperand)) =
    { s with serving := none, responses := s.responses ++ [{ who := w, rsp := { status := .fault .illegalOperand, r := 0 } }] } := rfl

@[simp] theorem complete_illegalCommand (s : State) (w : Requester) : s.complete w (.raise (.fault .illegalCommand)) =
    { s with serving := none, responses := s.responses ++ [{ who := w, rsp := { status := .fault .illegalCommand, r := 0 } }] } := rfl

/-! ### Delivery (rule R162) -/

theorem fault?_eq_none_iff (st : Status) : st.fault? = none ↔ st.isFault = false := by cases st <;> simp [Status.fault?, Status.isFault]

theorem fault?_eq_some_iff (st : Status) (f : Fault) : st.fault? = some f ↔ st = .fault f := by cases st <;> simp [Status.fault?]

/-- Everything a delivery can be: a response that is no fault, or a failed run. -/
theorem deliver_cases (rsp : Response) (t : State) :
    (rsp.status.isFault = false ∧ deliver rsp t = .response rsp t) ∨ ∃ f, rsp.status = .fault f ∧ deliver rsp t = .failed f t := by
  unfold deliver
  cases h : rsp.status.fault? with
  | none => exact .inl ⟨(fault?_eq_none_iff _).1 h, rfl⟩
  | some f => exact .inr ⟨f, (fault?_eq_some_iff _ _).1 h, rfl⟩

/-! ### Running a command (rules R165, R177) -/

theorem answerTo_of_check {i : Instr} {op : Request → Answer} {q : Request} (h : checkOperands i q = none) : answerTo i op q = op q := by
  simp [answerTo, h]

/-- Everything the operand check can raise is `IllegalOperand`. -/
theorem answerTo_cases (i : Instr) (op : Request → Answer) (q : Request) :
    (checkOperands i q = none ∧ answerTo i op q = op q) ∨
    (checkOperands i q = some .illegalOperand ∧ answerTo i op q = .raise (.fault .illegalOperand)) := by
  unfold answerTo checkOperands
  cases i <;> simp only [checkLiquiditySlot] <;> (try split) <;> simp_all

@[simp] theorem serve_of_none {i : Instr} {op : Request → Answer} {s : State} (h : s.serving = none) : serve i op s = .next s := by
  simp [serve, h]

theorem serve_of_some {i : Instr} {op : Request → Answer} {s : State} {q : InFlight} (h : s.serving = some q) :
    serve i op s = .next (s.complete q.who (answerTo i op q.req)) := by
  simp [serve, h]

/-- The pseudocode that each command runs on its request. -/
def opOf : Instr → Request → Answer
  | .msb, q => mostSignificantBit q.a.toNat
  | .lsb, q => leastSignificantBit q.a.toNat
  | .udivru, q => unsafeDivRoundUp q.a.toNat q.b.toNat
  | .muldiv, q => mulDiv q.a.toNat q.b.toNat q.c.toNat
  | .muldivru, q => mulDivRoundUp q.a.toNat q.b.toNat q.c.toNat
  | .adddelta, q => addDelta (lowHalf q.a) (signed128 (lowHalf q.b))
  | .sqrt0Rem, q => nextSqrtPriceFromAmount0RoundingUp q.a.toNat (lowHalf q.b) q.c.toNat false
  | .sqrt0Add, q => nextSqrtPriceFromAmount0RoundingUp q.a.toNat (lowHalf q.b) q.c.toNat true
  | .sqrt1Rem, q => nextSqrtPriceFromAmount1RoundingDown q.a.toNat (lowHalf q.b) q.c.toNat false
  | .sqrt1Add, q => nextSqrtPriceFromAmount1RoundingDown q.a.toNat (lowHalf q.b) q.c.toNat true

/-- Every arm of `exec` answers its request with its pseudocode, after the operand check. -/
theorem exec_eq_serve (i : Instr) (s : State) : exec i s = serve i (opOf i) s := by
  cases i <;> rfl

theorem exec_of_some {i : Instr} {s : State} {q : InFlight} (h : s.serving = some q) :
    exec i s = .next (s.complete q.who (answerTo i (opOf i) q.req)) := by
  rw [exec_eq_serve, serve_of_some h]

/-! ### The step (rules R47, R165) -/

/-- What the unit answers to a request: an illegal word, or the command's own answer. -/
def answerOf (q : Request) : Answer :=
  match decode q.cmd with
  | .legal i => answerTo i (opOf i) q
  | .illegal _ => .raise (.fault .illegalCommand)

theorem stepPort_of_some {s : State} {q : InFlight} (h : s.serving = some q) :
    stepPort s = .next (s.complete q.who (answerOf q.req)) := by
  unfold stepPort answerOf
  rw [h]
  cases hd : decode q.req.cmd with
  | legal i => simp only [hd]; exact exec_of_some h
  | illegal w => simp only [hd]; rfl

theorem fetch_of_some {s : State} {q : InFlight} (h : s.serving = some q) : fetch s = s := by simp [fetch, h]

theorem fetch_of_empty {s : State} (h : s.serving = none) (hi : s.inflight = []) : fetch s = s := by simp [fetch, h, hi]

theorem fetch_of_singleton {s : State} {q : InFlight} (h : s.serving = none) (hi : s.inflight = [q]) :
    fetch s = { s with inflight := [], serving := some q, picks := s.picks + 1 } := by
  simp [fetch, h, hi, nthOrLast]

theorem nthOrLast_mem (k : Nat) (x : InFlight) (xs : List InFlight) : nthOrLast k x xs ∈ x :: xs := by
  induction xs generalizing k x with
  | nil => simp [nthOrLast]
  | cons y ys ih =>
    cases k with
    | zero => simp [nthOrLast]
    | succ k => exact List.mem_cons_of_mem _ (ih k y)

/-- With requests waiting, the first request of some waiting requester comes to the port. -/
theorem fetch_of_waiting {s : State} (h : s.serving = none) (hi : s.inflight ≠ []) :
    ∃ (w : Requester) (q : InFlight), s.inflight.find? (fun p => p.who == w) = some q ∧
      fetch s = { s with inflight := s.inflight.eraseP (fun p => p.who == w), serving := some q, picks := s.picks + 1 } := by
  obtain ⟨x, xs, hx⟩ := List.exists_cons_of_ne_nil hi
  have hm := nthOrLast_mem (Config.freePick s.picks) x xs
  cases hf : (x :: xs).find? (fun p => p.who == (nthOrLast (Config.freePick s.picks) x xs).who) with
  | none => exact absurd (List.find?_eq_none.1 hf _ hm) (by simp)
  | some q =>
    refine ⟨(nthOrLast (Config.freePick s.picks) x xs).who, q, by rw [hx]; exact hf, ?_⟩
    simp only [fetch, h, hx, hf]

theorem step_of_some {s : State} {q : InFlight} (h : s.serving = some q) : step s = .next (s.complete q.who (answerOf q.req)) := by
  rw [step, fetch_of_some h, stepPort_of_some h]

theorem step_of_waiting {s : State} (h : s.serving = none) (hi : s.inflight ≠ []) :
    ∃ (w : Requester) (q : InFlight), s.inflight.find? (fun p => p.who == w) = some q ∧
      step s = .next ({ s with inflight := s.inflight.eraseP (fun p => p.who == w), serving := some q, picks := s.picks + 1 }.complete
        q.who (answerOf q.req)) := by
  obtain ⟨w, q, hq, hf⟩ := fetch_of_waiting h hi
  exact ⟨w, q, hq, by rw [step, hf, stepPort_of_some rfl]⟩

end Sys2Proof.Machine
end

