-- ==== Sys2Proof/Laws/PerInstr.lean ====
section
/-! SUPPORT. Statements about each command as syntax: its word, its fields, its operand slots (rules R60-R66). -/

namespace Sys2Proof.Laws.Encoding

/-- The word of a command: its reserved bits are zero, its fields are the command's own, it is one of the ten legal words and decodes to the command;
`DIR` is set only for the steppers; it uses one to three slots, of which the first is always one. -/
def Statement (i : Instr) : Prop :=
  rsvField (encode i) = 0 ∧ opField (encode i) = i.op.toNat ∧ dirField (encode i) = i.dir.toNat ∧
  legalWords.contains (encode i) = true ∧ decode (encode i) = .legal i ∧
  (i.dir = 1 → i.op = 7 ∨ i.op = 8) ∧ 1 ≤ i.operandKinds.length ∧ i.operandKinds.length ≤ 3

theorem msb : Statement .msb := by unfold Statement; decide
theorem lsb : Statement .lsb := by unfold Statement; decide
theorem udivru : Statement .udivru := by unfold Statement; decide
theorem muldiv : Statement .muldiv := by unfold Statement; decide
theorem muldivru : Statement .muldivru := by unfold Statement; decide
theorem adddelta : Statement .adddelta := by unfold Statement; decide
theorem sqrt0Rem : Statement .sqrt0Rem := by unfold Statement; decide
theorem sqrt0Add : Statement .sqrt0Add := by unfold Statement; decide
theorem sqrt1Rem : Statement .sqrt1Rem := by unfold Statement; decide
theorem sqrt1Add : Statement .sqrt1Add := by unfold Statement; decide

end Sys2Proof.Laws.Encoding
end

