-- ==== Sys2Proof/Tests/Slice0.lean ====
section
/-! SUPPORT. Tests of single steps with results taken from the spec, ill-formed terms the checks refuse, and a witness for the hypotheses of each statement. -/

namespace Sys2Proof.Tests

set_option Elab.async false

open Sys2Proof.Machine

/-! ## Helpers -/

/-- A request of requester 7. -/
def rq (cmd : CmdWord) (a b c : Word) : InFlight := { who := 7, req := { cmd := cmd, a := a, b := b, c := c } }

/-- The unit after reset with this request at its port. -/
def at1 (q : InFlight) : State := { State.reset with serving := some q }

/-- The response that the first step of the unit gives. -/
def firstResponse (s : State) : Option Response :=
  match step s with
  | .next t => t.responses.head?.map (·.rsp)
  | .fault _ => none
  | .refused _ => none

/-- The response to a request alone. -/
def answer (cmd : CmdWord) (a b c : Word) : Option Response := firstResponse (at1 (rq cmd a b c))

/-- A successful response. -/
def okay (r : Word) : Option Response := some { status := .ok, r := r }

/-- A response with an error. -/
def err (e : Error) : Option Response := some { status := .error e, r := 0 }

/-- The largest 256-bit value. -/
def max256 : Word := BitVec.allOnes 256

/-! ## Decoding: words written from the fields of rule R60 (`RSV`, `DIR`, `OP`) and the values of rules R62 and R64 -/

theorem test_decode_msb : decode 0b0000000000000001#16 = .legal .msb := by decide
theorem test_decode_lsb : decode 0b0000000000000010#16 = .legal .lsb := by decide
theorem test_decode_udivru : decode 0b0000000000000011#16 = .legal .udivru := by decide
theorem test_decode_muldiv : decode 0b0000000000000100#16 = .legal .muldiv := by decide
theorem test_decode_muldivru : decode 0b0000000000000101#16 = .legal .muldivru := by decide
theorem test_decode_adddelta : decode 0b0000000000000110#16 = .legal .adddelta := by decide
theorem test_decode_sqrt0Rem : decode 0b0000000000000111#16 = .legal .sqrt0Rem := by decide
theorem test_decode_sqrt0Add : decode 0b0000000000010111#16 = .legal .sqrt0Add := by decide
theorem test_decode_sqrt1Rem : decode 0b0000000000001000#16 = .legal .sqrt1Rem := by decide
theorem test_decode_sqrt1Add : decode 0b0000000000011000#16 = .legal .sqrt1Add := by decide

/-- Illegal words of rule R70, one for each of its cases, with the test of rule R65 that each fails first. -/
theorem test_decode_illegal :
    decode 0x0000 = .illegal .reservedOpcode ∧ decode 0x0009 = .illegal .reservedOpcode ∧ decode 0x000F = .illegal .reservedOpcode ∧
    decode 0x0011 = .illegal .directionBit ∧ decode 0x0016 = .illegal .directionBit ∧ decode 0x0010 = .illegal .reservedOpcode ∧
    decode 0x0021 = .illegal .reservedBits ∧ decode 0x8001 = .illegal .reservedBits := by decide

/-- The table numbers bits as the command word does; a word that does not fit its bits is refused. -/
theorem test_decodeTableWord :
    decodeTableWord 16 0x0017 = some .sqrt0Add ∧ decodeTableWord 16 0x0019 = none ∧ decodeTableWord 16 0x10001 = none := by decide

/-! ## Well-formedness: a term each check refuses, and one it accepts -/

theorem test_wf_refuses_illegal_word : Request.legalWord { cmd := 0x0011, a := 0, b := 0, c := 0 } = false := by decide
theorem test_wf_refuses_wide_liquidity :
    Request.operandsInRange { cmd := 0x0006, a := 2 ^ 128, b := 0, c := 0 } = false ∧
    Request.operandsInRange { cmd := 0x0006, a := 0, b := 2 ^ 128, c := 0 } = false ∧
    Request.operandsInRange { cmd := 0x0017, a := 0, b := 2 ^ 128, c := 0 } = false := by decide +kernel
theorem test_wf_refuses_zero_divisor : Request.divisorEstablished { cmd := 0x0003, a := 5, b := 0, c := 1 } = false := by decide +kernel
theorem test_wf_accepts : Request.wf { cmd := 0x0008, a := 2 ^ 255, b := 2 ^ 128 - 1, c := 0 } = true := by decide +kernel
theorem test_wf_refuses_arity : Command.arityOk { instr := .muldiv, operands := [1, 2] } = false := by decide
theorem test_wf_refuses_range :
    Command.rangesOk { instr := .adddelta, operands := [0, 2 ^ 127] } = false ∧
    Command.rangesOk { instr := .sqrt1Add, operands := [0, 2 ^ 128, 0] } = false ∧
    Command.rangesOk { instr := .msb, operands := [-1] } = false := by decide +kernel

/-! ## One step of each command (vectors of 95_test_vectors.md, named in the comments) -/

/-- V-MSB-5, V-MSB-7, S-9. -/
theorem test_msb : answer 0x0001 (2 ^ 128) 0 0 = okay 128 ∧ answer 0x0001 (2 ^ 255 + 1) 0 0 = okay 255 ∧
    answer 0x0001 0 0 0 = err .zeroHasNoBit := by decide +kernel
/-- V-LSB-2, V-LSB-5, S-8. -/
theorem test_lsb : answer 0x0002 6 0 0 = okay 1 ∧ answer 0x0002 (2 ^ 255) 0 0 = okay 255 ∧
    answer 0x0002 max256 0 0 = okay 0 := by decide +kernel
/-- V-UD-2, V-UD-6. -/
theorem test_udivru : answer 0x0003 7 2 0 = okay 4 ∧ answer 0x0003 max256 2 0 = okay (2 ^ 255) := by decide +kernel
/-- V-UD-8: the status is fixed, the result is free. -/
theorem test_udivru_zero : (answer 0x0003 5 0 0).map (·.status) = some (.fault .unsafeDivByZero) := by decide +kernel
/-- S-1, V-MD-12. -/
theorem test_muldiv : answer 0x0004 (2 ^ 128) (35 * 2 ^ 128) (8 * 2 ^ 128) = okay (35 * 2 ^ 125) ∧
    answer 0x0004 max256 max256 max256 = okay max256 := by decide +kernel
/-- V-MD-5, V-MD-6, V-MD-13. -/
theorem test_muldiv_errors : answer 0x0004 max256 1 0 = err .divisionByZero ∧ answer 0x0004 max256 2 0 = err .resultOverflow ∧
    answer 0x0004 max256 max256 (max256 - 1) = err .resultOverflow := by decide +kernel
/-- V-MR-5, V-MR-10. -/
theorem test_muldivru : answer 0x0005 (2 ^ 128) (2 ^ 128) (2 ^ 128 + 1) = okay (2 ^ 128) ∧ answer 0x0005 1 1 max256 = okay 1 := by decide +kernel
/-- V-MR-7, V-MR-4. -/
theorem test_muldivru_errors : answer 0x0005 (max256 - 1) (2 ^ 255 + 1) (2 ^ 255) = err .resultIsMax ∧
    answer 0x0005 (2 ^ 128) (2 ^ 128) 1 = err .resultOverflow := by decide +kernel
/-- V-AD-2, V-AD-9, V-AD-12. -/
theorem test_adddelta : answer 0x0006 (2 ^ 128 - 2) 1 0 = okay (2 ^ 128 - 1) ∧ answer 0x0006 (2 ^ 127) (2 ^ 127) 0 = okay 0 ∧
    answer 0x0006 0xde0b6b3a7640000 0xfffffffffffffffffa72ea1e89d80000 0 = okay 0x853a0d2313c0000 := by decide +kernel
/-- S-11, S-12. -/
theorem test_adddelta_errors : answer 0x0006 (2 ^ 128 - 1) 1 0 = err .overflow ∧
    answer 0x0006 0 (2 ^ 128 - 1) 0 = err .underflow := by decide +kernel
/-- The example of rule R133, and the result of rule R139. -/
theorem test_sqrt0Rem : answer 0x0007 (2 ^ 96) (10 ^ 18) (10 ^ 17) = okay 0x11c71c71c71c71c71c71c71c8 ∧
    answer 0x0007 26409387504754779197847983446 1 2 = okay (2 ^ 96 + 7) := by decide +kernel
/-- V-S0-2, and the corner case `N = prod` of rule R133. -/
theorem test_sqrt0Rem_errors : answer 0x0007 (2 ^ 160) 1 0 = err .priceOverflow ∧
    answer 0x0007 (2 ^ 96) 1 1 = err .productDivAmount := by decide +kernel
/-- V-S0-3, the result of rule R139, and the corner case of rule R132 whose sum passes 256 bits. -/
theorem test_sqrt0Add : answer 0x0017 (2 ^ 96) (10 ^ 18) (10 ^ 18) = okay (2 ^ 95) ∧
    answer 0x0017 (2 ^ 96) 1 2 = okay 26409387504754779197847983446 ∧
    answer 0x0017 (2 ^ 96) 1 max256 = okay 1 := by decide +kernel
/-- Rule R132: `L = 0` and `P = 0`; rule R68: a liquidity above 128 bits. -/
theorem test_sqrt0Add_errors : answer 0x0017 0 0 1 = err .divisionByZero ∧
    answer 0x0017 (2 ^ 96) (2 ^ 128) 1 = some { status := .fault .illegalOperand, r := 0 } := by decide +kernel
/-- The example of rule R137, and its smallest result. -/
theorem test_sqrt1Rem : answer 0x0008 (2 ^ 96) 3 1 = okay 0xaaaaaaaaaaaaaaaaaaaaaaaa ∧
    answer 0x0008 (2 ^ 96 + 1) 1 1 = okay 1 := by decide +kernel
/-- Rule R137: an amount of 0 with `P = 0`; `L = 0` on each path. -/
theorem test_sqrt1Rem_errors : answer 0x0008 0 1 0 = err .priceUnderflow ∧ answer 0x0008 5 0 (2 ^ 160 - 1) = err .divisionByZero ∧
    answer 0x0008 5 0 (2 ^ 160) = err .resultOverflow := by decide +kernel
/-- The example of rule R136, and its largest legal result. -/
theorem test_sqrt1Add : answer 0x0018 (2 ^ 96) (10 ^ 18) (10 ^ 18) = okay (2 ^ 97) ∧
    answer 0x0018 (2 ^ 160 - 1 - 2 ^ 96) 1 1 = okay (2 ^ 160 - 1) := by decide +kernel
/-- Rule R136: no wrap of the exact sum, and `L = 0` with an amount of 0. -/
theorem test_sqrt1Add_errors : answer 0x0018 max256 1 1 = err .priceOverflow ∧
    answer 0x0018 (2 ^ 96) 0 0 = err .divisionByZero := by decide +kernel

/-! ## The step -/

/-- Rule R70: an illegal word, whatever the slots hold. -/
theorem test_illegal_word : answer 0x0000 max256 max256 max256 = some { status := .fault .illegalCommand, r := 0 } := by decide +kernel

/-- The very next step after reset runs the word placed. -/
theorem test_withFetchWord : firstResponse (State.reset.withFetchWord 16 0x0006) = okay 0 ∧
    firstResponse (State.reset.withFetchWord 16 0x0001) = err .zeroHasNoBit := by decide +kernel

/-- The codes of two statuses of rule R160. -/
theorem test_codes : (Status.error .productDivAmount).code = 5 ∧ (Status.fault .illegalCommand).code = 15 := by decide

/-- The reference algorithm of rules R106 to R111 on V-MD-9 and V-MD-15. -/
theorem test_reference : mulDivReference (2 ^ 128) (2 ^ 128) (2 ^ 128 + 1) = .ret (2 ^ 128 - 1) ∧
    mulDivReference (max256 - 1) (2 ^ 255 + 1) (2 ^ 255) = .ret (2 ^ 256 - 1) := by decide +kernel

/-! ## The host (rules R72-R74) -/

/-- Rule R72: a negative delta is its 128-bit pattern, and a missing suffix is an error. -/
theorem test_assemble :
    assemble [] { mnemonic := .adddelta, suffix := none, operands := [.lit 1, .neg 1] } =
      .request { cmd := 0x0006, a := 1, b := 2 ^ 128 - 1, c := 0 } ∧
    assemble [] { mnemonic := .sqrt0, suffix := none, operands := [.lit 1, .lit 1, .lit 1] } = .error .suffix := by decide +kernel

/-- The host after reset. -/
def host0 : HostState := { unit := State.reset, bindings := [], run := .going }

/-- `a <- CDIV 10, 0` stops the host, which does not issue the next line. -/
theorem test_host_stops :
    ((HostProgram.seq (.issue 1 (.line { mnemonic := .cdiv, suffix := none, operands := [.lit 10, .lit 0] }) false)
      (.issue 2 (.line { mnemonic := .msb, suffix := none, operands := [.lit 1] }) false)).run host0).run = .stopped ∧
    ((HostProgram.seq (.issue 1 (.line { mnemonic := .cdiv, suffix := none, operands := [.lit 10, .lit 0] }) false)
      (.issue 2 (.line { mnemonic := .msb, suffix := none, operands := [.lit 1] }) false)).run host0).bindings.length = 1 := by decide +kernel

/-! ## Witnesses: concrete states and operands that meet the hypotheses of each statement together, each clause at an edge of its range -/

/-- Two requesters wait, one of them with two requests. -/
def waiting : State := { State.reset with inflight := [rq 0x0001 1 0 0, { who := 8, req := (rq 0x0002 6 0 0).req }, rq 0x0003 7 2 0] }

theorem witness_TenCommandWordsDecode : (0x0010 : CmdWord).toNat % 16 = 0 ∧ 9 ≤ (0x0009 : CmdWord).toNat % 16 := by decide

theorem witness_DecodeTestsFieldsInOrder :
    (0x0020 : CmdWord).toNat / 32 ≠ 0 ∧
    ((0x0009 : CmdWord).toNat / 32 = 0 ∧ 9 ≤ (0x0009 : CmdWord).toNat % 16) ∧ (0x0010 : CmdWord).toNat % 16 = 0 ∧
    ((0x0011 : CmdWord).toNat % 16 = 1 ∧ (0x0016 : CmdWord).toNat % 16 = 6 ∧ (0x0016 : CmdWord).toNat / 16 % 2 = 1) ∧
    ((0x0018 : CmdWord).toNat / 32 = 0 ∧ (0x0018 : CmdWord).toNat % 16 = 8 ∧ (0x0018 : CmdWord).toNat / 16 % 2 = 1) ∧
    ((0x0001 : CmdWord).toNat % 16 = 1 ∧ (0x0001 : CmdWord).toNat / 16 % 2 = 0) := by decide

theorem witness_IllegalWordsRaiseIllegalCommand :
    (at1 (rq 0x0020 0 0 0)).serving = some (rq 0x0020 0 0 0) ∧ (rq 0x0020 0 0 0).req.cmd.toNat / 32 ≠ 0 ∧
    (rq 0x0016 0 0 0).req.cmd.toNat % 16 = 6 ∧ (rq 0x0016 0 0 0).req.cmd.toNat / 16 % 2 = 1 ∧
    (rq 0x0017 0 0 0).req.cmd.toNat % 16 = 7 ∧ (rq 0x0017 0 0 0).req.cmd.toNat / 32 = 0 := by decide

theorem witness_CommandRequestRoundTrip :
    Command.wf { instr := .adddelta, operands := [2 ^ 128 - 1, -2 ^ 127] } = true ∧
    Command.wf { instr := .muldiv, operands := [2 ^ 256 - 1, 0, 2 ^ 256 - 1] } = true := by decide +kernel

theorem witness_DecodedRequestReencodes :
    decodeRequest { cmd := 0x0006, a := 2 ^ 128 - 1, b := 2 ^ 127, c := 9 } =
      .command { instr := .adddelta, operands := [2 ^ 128 - 1, -2 ^ 127] } := by decide +kernel

theorem witness_StepRunsTheDecodedCommand :
    decode (rq 0x0001 1 0 0).req.cmd = .legal .msb ∧ (fetch (at1 (rq 0x0001 1 0 0))).serving = some (rq 0x0001 1 0 0) ∧
    (at1 (rq 0x0001 1 0 0)).serving = some (rq 0x0001 1 0 0) ∧
    ({ State.reset with inflight := [rq 0x0001 1 0 0] } : State).serving = none := by decide

theorem witness_IdleUnitDoesNothing : State.reset.serving = none ∧ State.reset.inflight = [] := by decide

theorem witness_FetchTakesOldestOfItsRequester : waiting.serving = none ∧ waiting.inflight ≠ [] := by decide

theorem witness_EachRequestYieldsOneResponse :
    (at1 (rq 0x0001 1 0 0)).serving ≠ none ∧ waiting.inflight ≠ [] := by decide

theorem witness_RunAnswersEachRequesterInOrder : waiting.serving = none ∧ waiting.inflight.length = 3 := by decide

theorem witness_ResponseDependsOnlyOnTheRequest :
    (at1 (rq 0x0003 5 0 0)).serving = some (rq 0x0003 5 0 0) ∧
    ({ waiting with serving := some { who := 9, req := (rq 0x0003 5 0 0).req } } : State).serving =
      some { who := 9, req := (rq 0x0003 5 0 0).req } ∧
    (rq 0x0003 5 0 0).req = ({ who := 9, req := (rq 0x0003 5 0 0).req } : InFlight).req := by decide

theorem witness_UnusedSlotsAreNotRead :
    (at1 (rq 0x0001 8 1 2)).serving = some (rq 0x0001 8 1 2) ∧ (at1 (rq 0x0001 8 max256 0)).serving = some (rq 0x0001 8 max256 0) ∧
    decode (rq 0x0001 8 1 2).req.cmd = .legal .msb ∧ (rq 0x0001 8 max256 0).req.cmd = (rq 0x0001 8 1 2).req.cmd ∧
    (1 ≤ Instr.msb.operandKinds.length → (rq 0x0001 8 max256 0).req.a = (rq 0x0001 8 1 2).req.a) ∧
    ¬2 ≤ Instr.msb.operandKinds.length ∧ Instr.muldiv.operandKinds.length = 3 := by decide +kernel

theorem witness_HighBitsRaiseIllegalOperandFirst :
    (at1 (rq 0x0006 0 (2 ^ 128) 0)).serving = some (rq 0x0006 0 (2 ^ 128) 0) ∧ decode (rq 0x0006 0 (2 ^ 128) 0).req.cmd = .legal .adddelta ∧
    2 ^ 128 ≤ (rq 0x0006 0 (2 ^ 128) 0).req.b.toNat ∧ ¬2 ^ 128 ≤ (rq 0x0018 0 (2 ^ 128 - 1) 0).req.b.toNat := by decide +kernel

theorem witness_ExecChangesOnlyTheResponse :
    State.reset.serving = none ∧ (at1 (rq 0x0003 5 0 0)).serving = some (rq 0x0003 5 0 0) := by decide

theorem witness_MsbGivesTheHighestSetBit :
    (at1 (rq 0x0001 0 0 0)).serving = some (rq 0x0001 0 0 0) ∧ (rq 0x0001 0 0 0).req.a = 0 ∧
    (2 ^ 0 ≤ (rq 0x0001 1 0 0).req.a.toNat ∧ (rq 0x0001 1 0 0).req.a.toNat < 2 ^ (0 + 1)) ∧
    (2 ^ 255 ≤ (rq 0x0001 max256 0 0).req.a.toNat ∧ (rq 0x0001 max256 0 0).req.a.toNat < 2 ^ (255 + 1)) := by decide +kernel

theorem witness_LsbGivesTheLowestSetBit :
    (at1 (rq 0x0002 0 0 0)).serving = some (rq 0x0002 0 0 0) ∧ (rq 0x0002 0 0 0).req.a = 0 ∧
    ((rq 0x0002 max256 0 0).req.a.toNat % 2 ^ 0 = 0 ∧ (rq 0x0002 max256 0 0).req.a.toNat % 2 ^ (0 + 1) ≠ 0) ∧
    ((rq 0x0002 (2 ^ 255) 0 0).req.a.toNat % 2 ^ 255 = 0 ∧ (rq 0x0002 (2 ^ 255) 0 0).req.a.toNat % 2 ^ (255 + 1) ≠ 0) := by decide +kernel

/-- A command that succeeds on the request at the port. -/
theorem exec_of_ret {i : Instr} {q : InFlight} {v : Nat} (h : answerTo i (opOf i) q.req = .ret v) :
    exec i (at1 q) = .next { at1 q with serving := none, responses := (at1 q).responses ++ [{ who := q.who, rsp := { status := .ok, r := BitVec.ofNat 256 v } }] } := by
  rw [exec_of_some (q := q) rfl, h, complete_ret]

theorem witness_BitScanDefiningProperties :
    exec .msb (at1 (rq 0x0001 max256 0 0)) = Spec.replied (at1 (rq 0x0001 max256 0 0)) (rq 0x0001 max256 0 0) .ok (BitVec.ofNat 256 255) ∧
    exec .lsb (at1 (rq 0x0002 (2 ^ 255) 0 0)) = Spec.replied (at1 (rq 0x0002 (2 ^ 255) 0 0)) (rq 0x0002 (2 ^ 255) 0 0) .ok (BitVec.ofNat 256 255) ∧
    (rq 0x0001 (2 ^ 255) 0 0).req.a = BitVec.ofNat 256 (2 ^ 255) ∧ (rq 0x0001 0 0 0).req.a = 0 :=
  ⟨exec_of_ret (by decide +kernel), exec_of_ret (by decide +kernel), by decide +kernel, by decide⟩

theorem witness_BitScanCountsZeros :
    (at1 (rq 0x0001 (2 ^ 255) 0 0)).serving = some (rq 0x0001 (2 ^ 255) 0 0) ∧ (rq 0x0001 (2 ^ 255) 0 0).req.a ≠ 0 := by decide +kernel

theorem witness_LsbAtMostMsb :
    (at1 (rq 0x0001 6 0 0)).serving = some (rq 0x0001 6 0 0) ∧ (rq 0x0001 6 0 0).req.a ≠ 0 := by decide +kernel

theorem witness_UdivruRoundsUp :
    (at1 (rq 0x0003 max256 2 0)).serving = some (rq 0x0003 max256 2 0) ∧ (rq 0x0003 max256 2 0).req.b ≠ 0 ∧
    (rq 0x0003 0 0 0).req.b = 0 := by decide +kernel

theorem witness_UdivruAgreesWithCdivru :
    (at1 (rq 0x0003 7 2 9)).serving = some (rq 0x0003 7 2 9) ∧ (at1 (rq 0x0005 7 1 2)).serving = some (rq 0x0005 7 1 2) ∧
    (rq 0x0005 7 1 2).req.a = (rq 0x0003 7 2 9).req.a ∧ (rq 0x0005 7 1 2).req.b = 1 ∧
    (rq 0x0005 7 1 2).req.c = (rq 0x0003 7 2 9).req.b ∧ (rq 0x0003 7 2 9).req.b ≠ 0 ∧ (rq 0x0003 7 0 9).req.b = 0 := by decide +kernel

/-- The product `MAX * 1` is the largest below `2^256` with `d = 0`; `2^128 * 2^128` the smallest above. V-MD-15, V-MR-7: a floor of `MAX`. -/
theorem witness_MuldivGivesTheFloor :
    (at1 (rq 0x0004 max256 1 0)).serving = some (rq 0x0004 max256 1 0) ∧
    (max256.toNat * (1 : Word).toNat < 2 ^ 256 ∧ 2 ^ 256 ≤ (2 ^ 128 : Word).toNat * (2 ^ 128 : Word).toNat) ∧
    (max256 - 1).toNat * (2 ^ 255 + 1 : Word).toNat / (2 ^ 255 : Word).toNat = 2 ^ 256 - 1 ∧
    2 ^ 256 ≤ max256.toNat * max256.toNat / (max256 - 1).toNat := by decide +kernel

theorem witness_MuldivruGivesTheCeiling :
    (at1 (rq 0x0005 1 1 max256)).serving = some (rq 0x0005 1 1 max256) ∧ (rq 0x0005 1 1 max256).req.c ≠ 0 ∧
    (max256.toNat * (1 : Word).toNat + (1 : Word).toNat - 1) / (1 : Word).toNat < 2 ^ 256 ∧
    ((max256 - 1).toNat * (2 ^ 255 + 1 : Word).toNat / (2 ^ 255 : Word).toNat < 2 ^ 256 ∧
      2 ^ 256 ≤ ((max256 - 1).toNat * (2 ^ 255 + 1 : Word).toNat + (2 ^ 255 : Word).toNat - 1) / (2 ^ 255 : Word).toNat) ∧
    2 ^ 256 ≤ (2 ^ 128 : Word).toNat * (2 ^ 128 : Word).toNat / (1 : Word).toNat ∧
    max256.toNat * (1 : Word).toNat < 2 ^ 256 := by decide +kernel

theorem witness_MuldivAndMuldivruLaws :
    exec .muldiv (at1 (rq 0x0004 7 3 2)) = Spec.replied (at1 (rq 0x0004 7 3 2)) (rq 0x0004 7 3 2) .ok (BitVec.ofNat 256 10) ∧
    exec .muldivru (at1 (rq 0x0005 7 3 2)) = Spec.replied (at1 (rq 0x0005 7 3 2)) (rq 0x0005 7 3 2) .ok (BitVec.ofNat 256 11) ∧
    ((rq 0x0005 3 7 2).req.a = (rq 0x0004 7 3 2).req.b ∧ (rq 0x0005 3 7 2).req.b = (rq 0x0004 7 3 2).req.a) :=
  ⟨exec_of_ret (by decide +kernel), exec_of_ret (by decide +kernel), by decide⟩

theorem witness_AllMaximumCaseGivesMax :
    (at1 (rq 0x0004 max256 max256 max256)).serving = some (rq 0x0004 max256 max256 max256) ∧
    (rq 0x0004 max256 max256 max256).req.a = BitVec.allOnes 256 ∧ (rq 0x0004 max256 max256 max256).req.b = BitVec.allOnes 256 ∧
    (rq 0x0004 max256 max256 max256).req.c = BitVec.allOnes 256 := by decide +kernel

/-- Odd and even denominators, up to the one whose power of two is `2^255`. -/
theorem witness_ReferenceSubtractsTheRemainder : (2 ^ 255 : Word) ≠ 0 ∧ (1 : Word) ≠ 0 := by decide +kernel
theorem witness_ReferenceTakesOutThePowerOfTwo : (2 ^ 255 : Word) ≠ 0 ∧ (1 : Word) ≠ 0 := by decide +kernel
theorem witness_ReferenceInverseIsExact : (1 : Word).toNat % 2 = 1 ∧ max256.toNat % 2 = 1 := by decide +kernel
theorem witness_ReferenceAlgorithmGivesTheSameResponse :
    (at1 (rq 0x0004 7 3 2)).serving = some (rq 0x0004 7 3 2) := by decide

theorem witness_PseudoInstructionsCompute :
    (at1 (rq 0x0004 max256 1 1)).serving = some (rq 0x0004 max256 1 1) ∧ (rq 0x0004 max256 1 1).req.c = 1 ∧
    (rq 0x0004 max256 1 1).req.a.toNat * (rq 0x0004 max256 1 1).req.b.toNat < 2 ^ 256 ∧
    2 ^ 256 ≤ (rq 0x0004 (2 ^ 128) (2 ^ 128) 1).req.a.toNat * (rq 0x0004 (2 ^ 128) (2 ^ 128) 1).req.b.toNat ∧
    ((rq 0x0005 max256 1 2).req.b = 1 ∧ (rq 0x0005 max256 1 2).req.c ≠ 0 ∧ (rq 0x0005 max256 1 0).req.c = 0) := by decide +kernel

/-- V-AD-2, V-AD-7, V-AD-6, V-AD-3: the sum at 0, at the maximum, just below and just above. -/
theorem witness_AdddeltaGivesTheExactSum :
    (at1 (rq 0x0006 0 0 0)).serving = some (rq 0x0006 0 0 0) ∧
    ((2 ^ 128 - 2 : Word).toNat : Int) + (1 : Word).toNat = 2 ^ 128 - 1 ∧
    ((1 : Word).toNat : Int) + ((2 ^ 128 - 1 : Word).toNat - 2 ^ 128) = 0 ∧
    ((0 : Word).toNat : Int) + ((2 ^ 128 - 1 : Word).toNat - 2 ^ 128) < 0 ∧
    2 ^ 128 - 1 < ((2 ^ 128 - 1 : Word).toNat : Int) + (1 : Word).toNat ∧ (2 ^ 128 - 1 : Word).toNat < 2 ^ 128 ∧
    2 ^ 128 ≤ (2 ^ 128 : Word).toNat := by decide +kernel

theorem witness_Token0ZeroAmountKeepsThePrice :
    (at1 (rq 0x0007 (2 ^ 160 - 1) (2 ^ 128 - 1) 0)).serving = some (rq 0x0007 (2 ^ 160 - 1) (2 ^ 128 - 1) 0) ∧
    (2 ^ 128 - 1 : Word).toNat < 2 ^ 128 ∧ (2 ^ 160 - 1 : Word).toNat ≤ 2 ^ 160 - 1 ∧ 2 ^ 160 - 1 < (2 ^ 160 : Word).toNat ∧
    (rq 0x0007 (2 ^ 160) 1 0).req.c = 0 := by decide +kernel

/-- Both forms of rule R132, the product just below and at `2^256`, a sum that passes 256 bits, results at the bound and above it. -/
theorem witness_Sqrt0AddSteps :
    (at1 (rq 0x0017 0 0 1)).serving = some (rq 0x0017 0 0 1) ∧ (0 : Word).toNat * 2 ^ 96 = 0 ∧ 1 ≤ (1 : Word).toNat ∧
    (1 * max256.toNat < 2 ^ 256 ∧ 0 * 2 ^ 96 + 1 * max256.toNat < 2 ^ 256) ∧ 2 ^ 256 ≤ (2 : Word).toNat * (2 ^ 255 : Word).toNat ∧
    2 ^ 256 ≤ 1 * 2 ^ 96 / 2 ^ 96 + max256.toNat ∧
    ((2 ^ 128 - 1) * 2 ^ 96 * (2 ^ 161) + ((2 ^ 128 - 1) * 2 ^ 96 + 1 * 2 ^ 161) - 1) / ((2 ^ 128 - 1) * 2 ^ 96 + 1 * 2 ^ 161) > 2 ^ 160 - 1 := by
  decide +kernel

/-- Rule R133: `N = prod`, a product just below `N` whose result passes the price bound, the overflow of its own example, and its example of success.
The clause of `ResultIsMax` has no witness here: NOTES.md says why. -/
theorem witness_Sqrt0RemSteps :
    (at1 (rq 0x0007 (2 ^ 96) 1 1)).serving = some (rq 0x0007 (2 ^ 96) 1 1) ∧ 1 * 2 ^ 96 ≤ 1 * (2 ^ 96 : Word).toNat ∧
    (1 * (2 ^ 96 - 1) < 2 ^ 256 ∧ 1 * (2 ^ 96 - 1) < 1 * 2 ^ 96 ∧
      (1 * 2 ^ 96 * (2 ^ 96 - 1) + 1 - 1) / 1 < 2 ^ 256 ∧ 2 ^ 160 - 1 < (1 * 2 ^ 96 * (2 ^ 96 - 1) + 1 - 1) / 1) ∧
    2 ^ 256 ≤ (2 ^ 128 - 1) * 2 ^ 96 * ((2 ^ 128 - 1) * 2 ^ 96 - 1) / 1 ∧
    (10 ^ 18 * 2 ^ 96 * 2 ^ 96 + (10 ^ 18 * 2 ^ 96 - 10 ^ 17 * 2 ^ 96) - 1) / (10 ^ 18 * 2 ^ 96 - 10 ^ 17 * 2 ^ 96) ≤ 2 ^ 160 - 1 := by
  decide +kernel

theorem witness_Token0ResultsRoundUpAndStayOnTheirSide :
    exec .sqrt0Add (at1 (rq 0x0017 (2 ^ 96) 1 2)) =
      Spec.replied (at1 (rq 0x0017 (2 ^ 96) 1 2)) (rq 0x0017 (2 ^ 96) 1 2) .ok (BitVec.ofNat 256 26409387504754779197847983446) ∧
    exec .sqrt0Rem (at1 (rq 0x0007 26409387504754779197847983446 1 2)) =
      Spec.replied (at1 (rq 0x0007 26409387504754779197847983446 1 2)) (rq 0x0007 26409387504754779197847983446 1 2) .ok
        (BitVec.ofNat 256 (2 ^ 96 + 7)) ∧
    (2 * 2 ^ 96 < 2 ^ 256 ∧ 1 * 2 ^ 96 + 2 * 2 ^ 96 < 2 ^ 256) :=
  ⟨exec_of_ret (by decide +kernel), exec_of_ret (by decide +kernel), by decide +kernel⟩

/-- Rule R136: `L = 0` at both sides of the threshold, a sum at the bound and above it, and a quotient of 256 bits and more. -/
theorem witness_Sqrt1AddSteps :
    (at1 (rq 0x0018 0 0 (2 ^ 160 - 1))).serving = some (rq 0x0018 0 0 (2 ^ 160 - 1)) ∧
    ((2 ^ 160 - 1 : Word).toNat ≤ 2 ^ 160 - 1 ∧ 2 ^ 160 - 1 < (2 ^ 160 : Word).toNat) ∧
    2 ^ 256 ≤ (2 ^ 160 : Word).toNat * 2 ^ 96 / 1 ∧
    (1 * 2 ^ 96 / 1 + (2 ^ 160 - 1 - 2 ^ 96) ≤ 2 ^ 160 - 1 ∧ 2 ^ 160 - 1 < 1 * 2 ^ 96 / 1 + (2 ^ 160 - 2 ^ 96)) := by decide +kernel

/-- Rule R137: the price just at and above the quotient, and a result just above the bound. -/
theorem witness_Sqrt1RemSteps :
    (at1 (rq 0x0008 0 0 (2 ^ 160))).serving = some (rq 0x0008 0 0 (2 ^ 160)) ∧
    ((2 ^ 160 - 1 : Word).toNat ≤ 2 ^ 160 - 1 ∧ 2 ^ 160 - 1 < (2 ^ 160 : Word).toNat) ∧ 2 ^ 256 ≤ (2 ^ 160 : Word).toNat * 2 ^ 96 / 1 ∧
    ((2 ^ 96 : Word).toNat ≤ (1 * 2 ^ 96 + 1 - 1) / 1 ∧ (1 * 2 ^ 96 + 1 - 1) / 1 < (2 ^ 96 + 1 : Word).toNat) ∧
    ((2 ^ 160 + 2 ^ 96 - 1 : Word).toNat - (1 * 2 ^ 96 + 1 - 1) / 1 ≤ 2 ^ 160 - 1 ∧
      2 ^ 160 - 1 < (2 ^ 160 + 2 ^ 96 : Word).toNat - (1 * 2 ^ 96 + 1 - 1) / 1) := by decide +kernel

theorem witness_Token1PathsAgree : (3 : Nat) ≠ 0 ∧ (2 ^ 160 - 1 : Nat) ≤ 2 ^ 160 - 1 := by decide +kernel

/-- `v = 2^96/3` is no integer, so the round trip loses one unit. -/
theorem witness_Token1RoundTripWithinOne :
    exec .sqrt1Add (at1 (rq 0x0018 (2 ^ 96) 3 1)) =
      Spec.replied (at1 (rq 0x0018 (2 ^ 96) 3 1)) (rq 0x0018 (2 ^ 96) 3 1) .ok (BitVec.ofNat 256 (2 ^ 96 + (2 ^ 96 - 1) / 3)) ∧
    exec .sqrt1Rem (at1 (rq 0x0008 (BitVec.ofNat 256 (2 ^ 96 + (2 ^ 96 - 1) / 3)) 3 1)) =
      Spec.replied (at1 (rq 0x0008 (BitVec.ofNat 256 (2 ^ 96 + (2 ^ 96 - 1) / 3)) 3 1))
        (rq 0x0008 (BitVec.ofNat 256 (2 ^ 96 + (2 ^ 96 - 1) / 3)) 3 1) .ok (BitVec.ofNat 256 (2 ^ 96 - 1)) :=
  ⟨exec_of_ret (by decide +kernel), exec_of_ret (by decide +kernel)⟩

theorem witness_StepperResultsFitIn160Bits :
    exec .sqrt1Add (at1 (rq 0x0018 (2 ^ 160 - 1 - 2 ^ 96) 1 1)) =
      Spec.replied (at1 (rq 0x0018 (2 ^ 160 - 1 - 2 ^ 96) 1 1)) (rq 0x0018 (2 ^ 160 - 1 - 2 ^ 96) 1 1) .ok (BitVec.ofNat 256 (2 ^ 160 - 1)) :=
  exec_of_ret (by decide +kernel)

theorem witness_EachCommandWritesOnlyItsStatuses :
    exec .muldiv (at1 (rq 0x0004 7 3 2)) = .next { at1 (rq 0x0004 7 3 2) with serving := none, responses := (at1 (rq 0x0004 7 3 2)).responses ++
      [{ who := (rq 0x0004 7 3 2).who, rsp := { status := .ok, r := BitVec.ofNat 256 10 } }] } :=
  exec_of_ret (by decide +kernel)

theorem witness_NonOkResultIsZero :
    (at1 (rq 0x0003 5 0 0)).serving = some (rq 0x0003 5 0 0) ∧
    (answer 0x0003 5 0 0).map (·.status) = some (.fault .unsafeDivByZero) ∧
    (answer 0x0004 5 1 0).map (·.status) = some (.error .divisionByZero) := by decide +kernel

theorem witness_NarrowResultsAreZeroExtended :
    exec .msb (at1 (rq 0x0001 max256 0 0)) = Spec.replied (at1 (rq 0x0001 max256 0 0)) (rq 0x0001 max256 0 0) .ok (BitVec.ofNat 256 255) ∧
    exec .lsb (at1 (rq 0x0002 (2 ^ 255) 0 0)) = Spec.replied (at1 (rq 0x0002 (2 ^ 255) 0 0)) (rq 0x0002 (2 ^ 255) 0 0) .ok (BitVec.ofNat 256 255) ∧
    exec .adddelta (at1 (rq 0x0006 (2 ^ 128 - 2) 1 0)) =
      Spec.replied (at1 (rq 0x0006 (2 ^ 128 - 2) 1 0)) (rq 0x0006 (2 ^ 128 - 2) 1 0) .ok (BitVec.ofNat 256 (2 ^ 128 - 1)) :=
  ⟨exec_of_ret (by decide +kernel), exec_of_ret (by decide +kernel), exec_of_ret (by decide +kernel)⟩

theorem witness_FaultExactlyOnABrokenObligation :
    (at1 (rq 0x0003 5 1 0)).serving = some (rq 0x0003 5 1 0) ∧ (rq 0x0003 5 1 0).req.wf = true ∧
    (rq 0x0003 5 0 0).req.wf = false := by decide +kernel

/-- The state after reset, also with the three requests of `waiting` answered, meets the invariant. -/
theorem witness_StepKeepsTheInvariant : State.reset.Inv :=
  ⟨rfl, Nat.zero_le _, fun d h => absurd h (by simp [State.reset])⟩

theorem witness_HostActionsKeepTheInvariant :
    ({ State.reset with responses := [{ who := 7, rsp := { status := .ok, r := 3 } }] } : State).Inv ∧
    ({ State.reset with responses := [{ who := 7, rsp := { status := .ok, r := 3 } }] } : State).takeResponse 7 =
      .response { status := .ok, r := 3 } State.reset ∧
    ({ State.reset with responses := [{ who := 7, rsp := { status := .fault .illegalCommand, r := 0 } }] } : State).Inv ∧
    ({ State.reset with responses := [{ who := 7, rsp := { status := .fault .illegalCommand, r := 0 } }] } : State).takeResponse 7 =
      .failed .illegalCommand State.reset :=
  ⟨⟨rfl, Nat.zero_le _, by simp [Response.conforms]⟩, by decide, ⟨rfl, Nat.zero_le _, by simp [Response.conforms]⟩, by decide⟩

theorem witness_OpenParametersAndAcceptance :
    State.reset.inflight.length < Config.maxInflight ∧
    Config.maxInflight ≤ ({ State.reset with inflight := List.replicate Config.maxInflight (rq 0x0001 1 0 0) } : State).inflight.length :=
  ⟨Nat.succ_pos _, by simp⟩

theorem witness_TakenResponseIsTheRequestersOldest :
    ({ State.reset with responses := [{ who := 8, rsp := { status := .ok, r := 1 } }, { who := 7, rsp := { status := .ok, r := 3 } }] } : State).takeResponse 7 =
      .response { status := .ok, r := 3 } { State.reset with responses := [{ who := 8, rsp := { status := .ok, r := 1 } }] } ∧
    ({ State.reset with responses := [{ who := 7, rsp := { status := .fault .illegalOperand, r := 0 } }] } : State).takeResponse 7 =
      .failed .illegalOperand State.reset ∧
    State.reset.takeResponse 7 = .nothing := by decide

/-- The host's line `x <- MSB 2^7`, and its transaction. -/
theorem witness_HostBindsAndStops :
    host0.run = .going ∧
    (HostCommand.line { mnemonic := .msb, suffix := none, operands := [.pow2 7] }).request host0.bindings =
      .request { cmd := 0x0001, a := 128, b := 0, c := 0 } ∧
    transact host0.unit { who := 0, req := { cmd := 0x0001, a := 128, b := 0, c := 0 } } = .response { status := .ok, r := 7 } State.reset ∧
    transact host0.unit { who := 0, req := { cmd := 0x0001, a := 0, b := 0, c := 0 } } =
      .response { status := .error .zeroHasNoBit, r := 0 } State.reset := by
  decide +kernel

theorem witness_TransactionAnswersTheHostsRequest :
    Status.isFault .ok = false ∧
    transact State.reset { who := 0, req := { cmd := 0x0011, a := 0, b := 0, c := 0 } } = .failed .illegalCommand State.reset := by
  decide +kernel

/-- Raw requests that break each obligation, and one that breaks none. -/
theorem witness_FaultFailsTheHostsRun :
    host0.run = .going ∧ (HostCommand.raw { cmd := 0x0011, a := 1, b := 0, c := 0 }).request host0.bindings = .request { cmd := 0x0011, a := 1, b := 0, c := 0 } ∧
    Request.legalWord { cmd := 0x0011, a := 1, b := 0, c := 0 } = false ∧
    Request.legalWord { cmd := 0x0006, a := 0, b := 2 ^ 128, c := 0 } = true ∧ Request.operandsInRange { cmd := 0x0006, a := 0, b := 2 ^ 128, c := 0 } = false ∧
    Request.operandsInRange { cmd := 0x0003, a := 5, b := 0, c := 0 } = true ∧ Request.wf { cmd := 0x0003, a := 5, b := 0, c := 0 } = false ∧
    Request.wf { cmd := 0x0003, a := 5, b := 1, c := 0 } = true := by decide +kernel

theorem witness_HostStepFailsOnItsOwnFault :
    (at1 (rq 0x0003 5 0 0)).serving = some (rq 0x0003 5 0 0) ∧ (rq 0x0003 5 0 0).who = 7 ∧ (rq 0x0003 5 0 0).req.wf = false ∧
    (rq 0x0003 5 0 0).who ≠ 8 ∧ (rq 0x0003 5 1 0).req.wf = true := by decide +kernel

/-! ## Failed runs (rule R162) -/

/-- V-DC-1 and V-DC-11 as raw requests: `goesOn` does not save the run, nothing is bound and the next line is not issued. -/
theorem test_raw_requests_fail_the_run :
    ((HostProgram.seq (.issue 1 (.raw { cmd := 0x0000, a := 0, b := 0, c := 0 }) true)
      (.issue 2 (.line { mnemonic := .msb, suffix := none, operands := [.lit 1] }) false)).run host0) =
      { unit := State.reset, bindings := [], run := .failed .illegalCommand } ∧
    ((HostProgram.issue 1 (.raw { cmd := 0x0006, a := 1, b := max256, c := 0 }) true).run host0).run = .failed .illegalOperand := by
  decide +kernel

end Sys2Proof.Tests
end

/-! PROOF. Commands come back from their requests: each slot read back, the slots of a request as one list, the command word. -/

namespace Sys2Proof.Machine

/-! ### One slot (rules R10, R12, R68) -/

/-- A value that an unsigned slot admits, whichever its width up to 256, is the number that the slot then holds. -/
theorem toNat_ofInt_of_range {v : Int} (h0 : 0 ≤ v) (h1 : v < 2 ^ 256) : ((BitVec.ofInt 256 v).toNat : Int) = v := by
  rw [BitVec.toNat_ofInt, Int.emod_eq_of_lt h0 (by exact_mod_cast h1), Int.toNat_of_nonneg h0]

/-- `signed_128` reads back the pattern of every 128-bit signed value (rule R12). -/
theorem signed128_toNat_ofInt {v : Int} (h0 : -2 ^ 127 ≤ v) (h1 : v < 2 ^ 127) : signed128 (BitVec.ofInt 128 v).toNat = v := by
  rw [BitVec.toNat_ofInt, signed128]
  by_cases hv : 0 ≤ v
  · have : v % ((2 ^ 128 : Nat) : Int) = v := Int.emod_eq_of_lt hv (by omega)
    rw [this, if_pos (by omega), Int.toNat_of_nonneg hv]
  · have : v % ((2 ^ 128 : Nat) : Int) = v + 2 ^ 128 := by omega
    rw [this, if_neg (by omega)]
    omega

theorem decodeOperand_u128 {w : Word} (h : w.toNat < 2 ^ 128) : decodeOperand .u128 w = some (w.toNat : Int) := by
  have hz := (highHalfZero_iff w).2 h
  simp only [decodeOperand, hz, if_true, lowHalf_of_highHalfZero hz]

theorem decodeOperand_i128 {w : Word} (h : w.toNat < 2 ^ 128) : decodeOperand .i128 w = some (signed128 w.toNat) := by
  have hz := (highHalfZero_iff w).2 h
  simp only [decodeOperand, hz, if_true, lowHalf_of_highHalfZero hz]

/-- A slot gives back every value of its operand's range. -/
theorem decodeOperand_encodeOperand {k : OperandKind} {v : Int} (h : k.holds v = true) :
    decodeOperand k (encodeOperand k v) = some v := by
  cases k with
  | u256 =>
    obtain ⟨h0, h1⟩ := of_decide_eq_true h
    exact congrArg some (toNat_ofInt_of_range h0 h1)
  | u128 =>
    obtain ⟨h0, h1⟩ := of_decide_eq_true h
    have hv : ((encodeOperand .u128 v).toNat : Int) = v := toNat_ofInt_of_range h0 (by omega)
    rw [decodeOperand_u128 (by omega), hv]
  | i128 =>
    obtain ⟨h0, h1⟩ := of_decide_eq_true h
    have hw : (encodeOperand .i128 v).toNat = (BitVec.ofInt 128 v).toNat := BitVec.toNat_setWidth_of_le (by decide)
    rw [decodeOperand_i128 (hw ▸ (BitVec.ofInt 128 v).isLt), hw, signed128_toNat_ofInt h0 h1]

/-! ### All slots (rules R66, R67) -/

/-- The used slots give back the operands, whatever the unused slots hold. -/
theorem decodeOperands_encodeOperands_append (ks : List OperandKind) (vs : List Int) (unused : List Word)
    (hlen : vs.length = ks.length) (hr : (List.zipWith OperandKind.holds ks vs).all id = true) :
    decodeOperands ks (List.zipWith encodeOperand ks vs ++ unused) = some vs := by
  induction ks generalizing vs with
  | nil => rw [List.length_eq_zero_iff.1 hlen]; rfl
  | cons k ks ih =>
    cases vs with
    | nil => cases hlen
    | cons v vs =>
      simp only [List.zipWith_cons_cons, List.all_cons, Bool.and_eq_true, id_eq] at hr
      obtain ⟨hv, hvs⟩ := hr
      simp only [List.zipWith_cons_cons, List.cons_append, decodeOperands, decodeOperand_encodeOperand hv,
        ih vs (Nat.succ.inj hlen) hvs]

/-- The three slots of a request are the encoded operands followed by zeros. -/
theorem threeSlots_eq_append_replicate (ws : List Word) (h : ws.length ≤ 3) :
    [ws.getD 0 0, ws.getD 1 0, ws.getD 2 0] = ws ++ List.replicate (3 - ws.length) 0 := by
  match ws, h with
  | [], _ => rfl
  | [_], _ => rfl
  | [_, _], _ => rfl
  | [_, _, _], _ => rfl

/-! ### The command word (rules R64, R66) -/

theorem encodingStatement (i : Instr) : Laws.Encoding.Statement i := by
  cases i with
  | msb => exact Laws.Encoding.msb
  | lsb => exact Laws.Encoding.lsb
  | udivru => exact Laws.Encoding.udivru
  | muldiv => exact Laws.Encoding.muldiv
  | muldivru => exact Laws.Encoding.muldivru
  | adddelta => exact Laws.Encoding.adddelta
  | sqrt0Rem => exact Laws.Encoding.sqrt0Rem
  | sqrt0Add => exact Laws.Encoding.sqrt0Add
  | sqrt1Rem => exact Laws.Encoding.sqrt1Rem
  | sqrt1Add => exact Laws.Encoding.sqrt1Add

@[simp] theorem decode_encode (i : Instr) : decode (encode i) = .legal i := by
  obtain ⟨_, _, _, _, hdec, _⟩ := encodingStatement i
  exact hdec

theorem operandKinds_length_le (i : Instr) : i.operandKinds.length ≤ 3 := by
  obtain ⟨_, _, _, _, _, _, _, hlen⟩ := encodingStatement i
  exact hlen

/-! ### The whole request -/

theorem command_wf_iff (c : Command) :
    c.wf = true ↔ c.operands.length = c.instr.operandKinds.length ∧
      (List.zipWith OperandKind.holds c.instr.operandKinds c.operands).all id = true := by
  simp only [Command.wf, Command.arityOk, Command.rangesOk, Bool.and_eq_true, beq_iff_eq]

/-- The slots of the request that issues a well-formed command decode to its operands. -/
theorem decodeOperands_encodeRequest {c : Command} (h : c.wf = true) :
    decodeOperands c.instr.operandKinds [(encodeRequest c).a, (encodeRequest c).b, (encodeRequest c).c] = some c.operands := by
  obtain ⟨hlen, hr⟩ := (command_wf_iff c).1 h
  have hws : (List.zipWith encodeOperand c.instr.operandKinds c.operands).length ≤ 3 := by
    rw [List.length_zipWith]
    exact (Nat.min_le_left _ _).trans (operandKinds_length_le c.instr)
  simp only [encodeRequest]
  rw [threeSlots_eq_append_replicate _ hws]
  exact decodeOperands_encodeOperands_append _ _ _ hlen hr

/-- Settles O5: the word decodes to the command, and each used slot gives back its operand. -/
theorem commandRequestRoundTrip : Obligations.CommandRequestRoundTrip := by
  intro c h
  have hcmd : decode (encodeRequest c).cmd = .legal c.instr := decode_encode c.instr
  simp only [decodeRequest, hcmd, decodeOperands_encodeRequest h]

end Sys2Proof.Machine

/-! PROOF. The invariant of the state between commands: what answering, accepting, delivering and reset do to it; the OPEN parameters. -/

namespace Sys2Proof.Machine

/-! ### Answering a request (rules R20, R163) -/

/-- Whatever a command answers, its response has `R = 0` unless the status lets `R` be anything. -/
theorem response_conforms (x : Answer) (free : Word) : (x.response free).conforms = true := by
  rcases x with v | ⟨e | ⟨_ | _ | _⟩⟩ <;> simp [Response.conforms]

/-- Answering the request at the port frees the port, so it gives the invariant back where the rest of it held. -/
theorem inv_complete {s : State} (w : Requester) (x : Answer) (hlen : s.inflight.length ≤ Config.maxInflight)
    (hrsp : ∀ d ∈ s.responses, d.rsp.conforms = true) : (s.complete w x).Inv := by
  refine ⟨complete_serving s w x, hlen, fun d hd => ?_⟩
  rw [complete_responses, List.mem_append, List.mem_singleton] at hd
  obtain hd | rfl := hd
  · exact hrsp d hd
  · exact response_conforms x _

/-- Rule R177: with no request the step gives back the same state. -/
theorem step_of_idle {s : State} (h : s.serving = none) (hi : s.inflight = []) : step s = .next s := by
  simp only [step, fetch_of_empty h hi, stepPort, h]

/-- Settles O49: an idle step changes nothing, and any other takes one request out of the queue and answers it. -/
theorem stepKeepsTheInvariant : Obligations.StepKeepsTheInvariant := by
  intro s hs
  have ⟨hserving, hlen, hrsp⟩ := hs
  by_cases hi : s.inflight = []
  · exact ⟨s, step_of_idle hserving hi, hs⟩
  · obtain ⟨w, q, -, hstep⟩ := step_of_waiting hserving hi
    have hle : (s.inflight.eraseP (fun p => p.who == w)).length ≤ Config.maxInflight := List.length_eraseP_le.trans hlen
    exact ⟨_, hstep, inv_complete q.who _ hle hrsp⟩

/-! ### The host at the interface (rules R23, R180, R187) -/

theorem inv_accept {s : State} (hs : s.Inv) (p : InFlight) : (s.accept p).Inv := by
  have ⟨hserving, hlen, hrsp⟩ := hs
  by_cases hready : s.inflight.length < Config.maxInflight
  · rw [accept_of_ready s p hready]
    exact ⟨hserving, by rw [List.length_append]; exact hready, hrsp⟩
  · rw [accept_of_full s p hready]
    exact hs

theorem inv_assertReset (s : State) : s.assertReset.Inv :=
  ⟨assertReset_serving s, Nat.zero_le _, fun _ hd => nomatch hd⟩

/-- Taking responses away keeps the invariant. -/
theorem inv_of_responses_subset {s : State} {rs : List Addressed} (hs : s.Inv) (h : rs ⊆ s.responses) :
    { s with responses := rs }.Inv := by
  obtain ⟨hserving, hlen, hrsp⟩ := hs
  exact ⟨hserving, hlen, fun d hd => hrsp d (h hd)⟩

/-- Everything that taking a response can do: nothing, or the delivery of a pending response, which leaves the channel. -/
theorem takeResponse_cases (s : State) (w : Requester) :
    s.takeResponse w = .nothing ∨
    ∃ d ∈ s.responses, s.takeResponse w = deliver d.rsp { s with responses := s.responses.eraseP (fun e => e.who == w) } := by
  unfold State.takeResponse
  cases hf : s.responses.find? (fun d => d.who == w) with
  | none => exact .inl rfl
  | some d => exact .inr ⟨d, List.mem_of_find?_eq_some hf, rfl⟩

theorem deliver_eq_response {rsp r : Response} {t u : State} (h : deliver rsp t = .response r u) : r = rsp ∧ u = t := by
  obtain ⟨-, he⟩ | ⟨f, -, he⟩ := deliver_cases rsp t <;> rw [he] at h <;> cases h
  exact ⟨rfl, rfl⟩

theorem deliver_eq_failed {rsp : Response} {f : Fault} {t u : State} (h : deliver rsp t = .failed f u) :
    rsp.status = .fault f ∧ u = t := by
  obtain ⟨-, he⟩ | ⟨g, hg, he⟩ := deliver_cases rsp t <;> rw [he] at h <;> cases h
  exact ⟨hg, rfl⟩

theorem inv_of_takeResponse_response {s t : State} {w : Requester} {rsp : Response} (hs : s.Inv)
    (h : s.takeResponse w = .response rsp t) : rsp.conforms = true ∧ t.Inv := by
  obtain he | ⟨d, hd, he⟩ := takeResponse_cases s w <;> rw [he] at h
  · cases h
  · obtain ⟨rfl, rfl⟩ := deliver_eq_response h
    have ⟨_, _, hrsp⟩ := hs
    exact ⟨hrsp d hd, inv_of_responses_subset hs List.eraseP_subset⟩

theorem inv_of_takeResponse_failed {s t : State} {w : Requester} {f : Fault} (hs : s.Inv)
    (h : s.takeResponse w = .failed f t) : t.Inv := by
  obtain he | ⟨d, -, he⟩ := takeResponse_cases s w <;> rw [he] at h
  · cases h
  · obtain ⟨-, rfl⟩ := deliver_eq_failed h
    exact inv_of_responses_subset hs List.eraseP_subset

/-- Settles O50: acceptance respects `MAX_INFLIGHT`, reset empties everything, and both deliveries only take a response away. -/
theorem hostActionsKeepTheInvariant : Obligations.HostActionsKeepTheInvariant := fun s hs =>
  ⟨inv_accept hs, inv_assertReset s, fun _ _ _ => inv_of_takeResponse_response hs, fun _ _ _ => inv_of_takeResponse_failed hs⟩

/-! ### The OPEN parameters (rules R9, R188) -/

theorem one_le_maxInflight : 1 ≤ Config.maxInflight := Nat.le_add_left 1 _

theorem one_le_latency (cmd : CmdWord) (a b c : Word) : 1 ≤ Config.latency cmd a b c := Nat.le_add_left 1 _

/-- Settles O52: both parameters are one more than a free number, and `accept` takes a request exactly when the queue has room. -/
theorem openParametersAndAcceptance : Obligations.OpenParametersAndAcceptance :=
  ⟨one_le_maxInflight, one_le_latency, fun s p => ⟨accept_of_ready s p, fun hfull => accept_of_full s p (Nat.not_lt.2 hfull)⟩⟩

end Sys2Proof.Machine

/-! PROOF. The state at the interface: what one answered request changes, that its response is a function of the request alone,
and that a run of any length answers each requester in order. -/

namespace Sys2Proof.Machine

/-! ### The request the unit takes (rules R48, R175, R187) -/

/-- The request that comes to the port is its requester's oldest; it leaves the queue, and the others stay in order. -/
theorem fetch_takes_oldest {s : State} (h : s.serving = none) (hi : s.inflight ≠ []) :
    ∃ (before : List InFlight) (q : InFlight) (after : List InFlight),
      s.inflight = before ++ q :: after ∧ (∀ p ∈ before, p.who ≠ q.who) ∧
      fetch s = { s with inflight := before ++ after, serving := some q, picks := s.picks + 1 } := by
  obtain ⟨w, q, hfind, hfetch⟩ := fetch_of_waiting h hi
  obtain ⟨hq, before, after, hsplit, hbefore⟩ := List.find?_eq_some_iff_append.1 hfind
  obtain rfl : q.who = w := by simpa using hq
  have hothers : ∀ p ∈ before, p.who ≠ q.who := by simpa using hbefore
  have herase : s.inflight.eraseP (fun p => p.who == q.who) = before ++ after := by
    rw [hsplit, List.eraseP_append_right _ (by simpa using hothers)]
    simp
  exact ⟨before, q, after, hsplit, hothers, by rw [hfetch, herase]⟩

/-- A step with requests waiting takes one requester's oldest request out of the queue and answers it. -/
theorem step_answers_oldest {s : State} (h : s.serving = none) (hi : s.inflight ≠ []) :
    ∃ (before : List InFlight) (q : InFlight) (after : List InFlight),
      s.inflight = before ++ q :: after ∧ (∀ p ∈ before, p.who ≠ q.who) ∧
      step s = .next ({ s with inflight := before ++ after, serving := some q, picks := s.picks + 1 }.complete
        q.who (answerOf q.req)) := by
  obtain ⟨before, q, after, hsplit, hothers, hfetch⟩ := fetch_takes_oldest h hi
  exact ⟨before, q, after, hsplit, hothers, by rw [step, hfetch, stepPort_of_some rfl]⟩

/-- Settles O10: a request at the port is answered there, and otherwise one request leaves the queue to be answered. -/
theorem eachRequestYieldsOneResponse : Obligations.EachRequestYieldsOneResponse := by
  intro s hbusy
  cases hserving : s.serving with
  | some q => exact ⟨q, _, _, step_of_some hserving, rfl, rfl, .inl ⟨rfl, rfl⟩⟩
  | none =>
    have hi : s.inflight ≠ [] := hbusy.resolve_left (absurd hserving)
    obtain ⟨before, q, after, hsplit, -, hstep⟩ := step_answers_oldest hserving hi
    exact ⟨q, _, _, hstep, rfl, rfl, .inr ⟨rfl, before, after, hsplit, rfl⟩⟩

/-! ### The response is a function of the request (rules R20, R163) -/

theorem response_status_eq_unsafeDivByZero_iff (x : Answer) (free : Word) :
    (x.response free).status = .fault .unsafeDivByZero ↔ x = .raise (.fault .unsafeDivByZero) := by
  rcases x with v | ⟨e | ⟨_ | _ | _⟩⟩ <;> simp

/-- Two responses to one answer differ at most in the free `R` of `UnsafeDivByZero`. -/
theorem responses_agree (x : Answer) (u v : Word) :
    (x.response u).status = (x.response v).status ∧
      ((x.response u).status ≠ .fault .unsafeDivByZero → (x.response u).r = (x.response v).r) := by
  refine ⟨by rw [response_status, response_status], fun hne => ?_⟩
  have hx : x ≠ .raise (.fault .unsafeDivByZero) := mt (response_status_eq_unsafeDivByZero_iff x u).2 hne
  rw [response_eq_of_ne hx u v]

/-- Settles O12: both steps answer with `answerOf` of the one request, each with its own free value. -/
theorem responseDependsOnlyOnTheRequest : Obligations.ResponseDependsOnlyOnTheRequest := by
  intro s t q p hs ht hreq
  refine ⟨(answerOf q.req).response (Config.freeResult s.draws), (answerOf q.req).response (Config.freeResult t.draws),
    _, _, step_of_some hs, step_of_some ht, rfl, ?_, responses_agree _ _ _⟩
  rw [complete_responses, hreq]

/-- Settles O15: with a request at the port `exec` is one `complete`, whose fields say what it changes. -/
theorem execChangesOnlyTheResponse : Obligations.ExecChangesOnlyTheResponse := by
  intro i s
  refine ⟨fun hnone => by rw [exec_eq_serve, serve_of_none hnone], fun q hq => ?_⟩
  refine ⟨_, _, exec_of_some hq, rfl, rfl, rfl, rfl, ?_⟩
  simp only [complete_draws, drawsUsed_eq, response_status_eq_unsafeDivByZero_iff]
  split <;> rfl

/-! ### Runs (rules R30, R48, R187) -/

theorem run_succ_of_step {s t : State} (h : step s = .next t) (n : Nat) :
    Host.Core.run Sys2Proof.core (n + 1) s = Host.Core.run Sys2Proof.core n t := by
  simp only [Host.Core.run, Host.Check.core_step, h]

/-- Whatever the free value, the unit may give this response to the request alone after reset. -/
theorem answersAlone_response (req : Request) (k : Nat) :
    Spec.AnswersAlone req ((answerOf req).response (Config.freeResult k)) :=
  ⟨k, _, step_of_some rfl, rfl⟩

/-- Between the two states the requester got responses to its oldest requests, in their order, and each is what its request gets alone;
its other requests still wait. -/
def AnsweredInOrder (w : Requester) (s t : State) : Prop :=
  ∃ (done : List InFlight) (rs : List Response),
    s.inflight.filter (fun p => p.who == w) = done ++ t.inflight.filter (fun p => p.who == w) ∧
    t.responses.filter (fun d => d.who == w) =
      s.responses.filter (fun d => d.who == w) ++ rs.map (fun r => { who := w, rsp := r }) ∧
    List.Forall₂ (fun p r => Spec.AnswersAlone p.req r) done rs

theorem AnsweredInOrder.refl (w : Requester) (s : State) : AnsweredInOrder w s s :=
  ⟨[], [], rfl, (List.append_nil _).symm, .nil⟩

theorem AnsweredInOrder.trans {w : Requester} {s t u : State} (hst : AnsweredInOrder w s t) (htu : AnsweredInOrder w t u) :
    AnsweredInOrder w s u := by
  obtain ⟨done₁, rs₁, hqueue₁, hchannel₁, halone₁⟩ := hst
  obtain ⟨done₂, rs₂, hqueue₂, hchannel₂, halone₂⟩ := htu
  refine ⟨done₁ ++ done₂, rs₁ ++ rs₂, ?_, ?_, List.rel_append halone₁ halone₂⟩
  · rw [hqueue₁, hqueue₂, List.append_assoc]
  · rw [hchannel₂, hchannel₁, List.map_append, List.append_assoc]

/-- Answering a requester's oldest request is in order for it, and for every other requester, to whom nothing happens. -/
theorem answeredInOrder_of_oldest {s t : State} {before after : List InFlight} {q : InFlight} {rsp : Response}
    (hsplit : s.inflight = before ++ q :: after) (hothers : ∀ p ∈ before, p.who ≠ q.who)
    (hqueue : t.inflight = before ++ after) (hchannel : t.responses = s.responses ++ [{ who := q.who, rsp := rsp }])
    (halone : Spec.AnswersAlone q.req rsp) (w : Requester) : AnsweredInOrder w s t := by
  by_cases hw : q.who = w
  · subst hw
    have hnone : before.filter (fun p => p.who == q.who) = [] := by simpa [List.filter_eq_nil_iff] using hothers
    exact ⟨[q], [rsp], by simp [hsplit, hqueue, hnone], by simp [hchannel], .cons halone .nil⟩
  · exact ⟨[], [], by simp [hsplit, hqueue, hw], by simp [hchannel, hw], .nil⟩

/-- One step from a free port: the port is free again, one request less waits if any did, and every requester is answered in order. -/
theorem step_answers_in_order {s : State} (h : s.serving = none) :
    ∃ t : State, step s = .next t ∧ t.serving = none ∧ t.inflight.length = s.inflight.length - 1 ∧
      ∀ w : Requester, AnsweredInOrder w s t := by
  by_cases hi : s.inflight = []
  · exact ⟨s, step_of_idle h hi, h, by rw [hi]; rfl, fun w => .refl w s⟩
  · obtain ⟨before, q, after, hsplit, hothers, hstep⟩ := step_answers_oldest h hi
    refine ⟨_, hstep, rfl, ?_, answeredInOrder_of_oldest hsplit hothers rfl rfl (answersAlone_response q.req s.draws)⟩
    simp [hsplit]

/-- Settles O11, by induction on the number of steps: each step answers in order, and answering in order composes. -/
theorem runAnswersEachRequesterInOrder : Obligations.RunAnswersEachRequesterInOrder := by
  intro n
  induction n with
  | zero => exact fun s hs => ⟨s, rfl, hs, rfl, fun w => AnsweredInOrder.refl w s⟩
  | succ n ih =>
    intro s hs
    obtain ⟨u, hstep, hu, hlen, hsu⟩ := step_answers_in_order hs
    obtain ⟨t, hrun, ht, hlen', hut⟩ := ih u hu
    exact ⟨t, (run_succ_of_step hstep n).trans hrun, ht, by omega, fun w => (hsu w).trans (hut w)⟩

/-! ### Reset (rules R20, R31, R180, R181) -/

/-- Settles O48: after reset the port is free and both lists are empty. -/
theorem resetMeetsTheInvariant : Obligations.ResetMeetsTheInvariant :=
  ⟨reset_serving, Nat.zero_le _, fun _ hd => nomatch hd⟩

/-- Settles O51: reset empties the queue, the port and the channel, so the unit is idle and has room for a request. -/
theorem resetDiscardsUnansweredRequests : Obligations.ResetDiscardsUnansweredRequests := by
  intro s
  refine ⟨assertReset_inflight s, assertReset_serving s, rfl,
    step_of_idle (assertReset_serving s) (assertReset_inflight s), fun p => ?_⟩
  have hroom : s.assertReset.inflight.length < Config.maxInflight := one_le_maxInflight
  rw [accept_of_ready _ p hroom, assertReset_inflight, List.nil_append]

end Sys2Proof.Machine

/-! PROOF. The request at the port: how it comes there, the narrow results of its command, and the host's transaction on it. -/

namespace Sys2Proof.Machine

/-- Settles O9: `fetch` takes the first request of the requester that the free value picks. -/
theorem fetchTakesOldestOfItsRequester : Obligations.FetchTakesOldestOfItsRequester :=
  fun _ => fetch_takes_oldest

/-! ### The decoded command (rules R47, R65, R165) -/

/-- Once `fetch` has a request with a legal word at the port, the step is its command. -/
theorem step_eq_exec_fetch {s : State} {q : InFlight} {i : Instr} (hdec : decode q.req.cmd = .legal i)
    (hport : (fetch s).serving = some q) : step s = exec i (fetch s) := by
  simp only [step, stepPort, hport, hdec]

theorem step_eq_exec_of_some {s : State} {q : InFlight} {i : Instr} (hdec : decode q.req.cmd = .legal i)
    (hport : s.serving = some q) : step s = exec i s := by
  have hfetch := fetch_of_some hport
  rw [step_eq_exec_fetch hdec (hfetch.symm ▸ hport), hfetch]

/-- Placing a command word as the table's 16-bit number puts that word at the port, with operand slots of 0. -/
theorem withFetchWord_toNat (s : State) (w : CmdWord) : s.withFetchWord 16 w.toNat =
    { s with serving := some { who := 0, req := { cmd := w, a := 0, b := 0, c := 0 } } } := by
  have hw : BitVec.ofNat 16 (w.toNat % 2 ^ 16) = w := by rw [Nat.mod_eq_of_lt w.isLt, BitVec.ofNat_toNat, BitVec.setWidth_eq]
  rw [State.withFetchWord, hw]

/-- Settles O7: a request at the port stays there, and one that waits alone is fetched; then the step is its decoded command. -/
theorem stepRunsTheDecodedCommand : Obligations.StepRunsTheDecodedCommand := by
  intro s q i hdec
  refine ⟨step_eq_exec_fetch hdec, step_eq_exec_of_some hdec, fun hfree hone => ?_, ?_⟩
  · have hfetch := fetch_of_singleton hfree hone
    rw [step_eq_exec_fetch hdec (congrArg State.serving hfetch), hfetch]
  · rw [withFetchWord_toNat]
    exact step_eq_exec_of_some (q := { who := 0, req := { cmd := q.req.cmd, a := 0, b := 0, c := 0 } }) hdec rfl

/-! ### Narrow results (rules R45, R69) -/

/-- A response with status `OK` carries the value returned. -/
theorem response_eq_ok {x : Answer} {free r : Word} (h : x.response free = { status := .ok, r := r }) :
    ∃ v, x = .ret v ∧ r = BitVec.ofNat 256 v := by
  rcases x with v | ⟨e | ⟨_ | _ | _⟩⟩ <;> cases h
  exact ⟨v, rfl, rfl⟩

/-- A command that succeeds passed its operand check, and its `R` is the value its pseudocode returned. -/
theorem exec_eq_replied_ok {i : Instr} {s : State} {q : InFlight} {r : Word} (hq : s.serving = some q)
    (h : exec i s = Spec.replied s q .ok r) : ∃ v, opOf i q.req = .ret v ∧ r = BitVec.ofNat 256 v := by
  rw [exec_of_some hq, Host.Outcome.next.injEq] at h
  have hrsp := congrArg State.responses h
  rw [complete_responses, List.append_cancel_left_eq, List.singleton_inj, Addressed.mk.injEq] at hrsp
  obtain ⟨-, hok⟩ := hrsp
  obtain ⟨v, hret, hr⟩ := response_eq_ok hok
  obtain ⟨-, he⟩ | ⟨-, he⟩ := answerTo_cases i (opOf i) q.req <;> rw [he] at hret
  · exact ⟨v, hret, hr⟩
  · cases hret

/-- A bound on what the pseudocode returns bounds the `R` of every success. -/
theorem result_lt_of_opOf_lt {i : Instr} {s : State} {q : InFlight} {r : Word} {n : Nat} (hq : s.serving = some q)
    (hlt : ∀ v, opOf i q.req = .ret v → v < n) (h : exec i s = Spec.replied s q .ok r) : r.toNat < n := by
  obtain ⟨v, hret, rfl⟩ := exec_eq_replied_ok hq h
  rw [BitVec.toNat_ofNat]
  exact (Nat.mod_le _ _).trans_lt (hlt v hret)

/-- An index found in a range is below its end. -/
theorem indexAnswer_find?_range_lt {n v : Nat} {p : Nat → Bool} (h : indexAnswer ((List.range n).find? p) = .ret v) : v < n := by
  cases hf : (List.range n).find? p with
  | none => rw [hf] at h; cases h
  | some i =>
    rw [hf] at h
    cases h
    exact List.mem_range.1 (List.mem_of_find?_eq_some hf)

theorem mostSignificantBit_lt {x v : Nat} (h : mostSignificantBit x = .ret v) : v < 256 := by
  unfold mostSignificantBit at h
  split at h
  · cases h
  · exact indexAnswer_find?_range_lt h

theorem leastSignificantBit_lt {x v : Nat} (h : leastSignificantBit x = .ret v) : v < 256 := by
  unfold leastSignificantBit at h
  split at h
  · cases h
  · exact indexAnswer_find?_range_lt h

theorem lowHalf_lt (w : Word) : lowHalf w < 2 ^ 128 := (w.extractLsb' 0 128).isLt

/-- A sum is checked against the maximum Liquidity, and a difference does not pass the liquidity it starts from. -/
theorem addDelta_lt {l v : Nat} {d : Int} (hl : l < 2 ^ 128) (h : addDelta l d = .ret v) : v < 2 ^ 128 := by
  unfold addDelta at h
  split at h
  · split at h
    · cases h
    · cases h
      exact (Nat.sub_le _ _).trans_lt hl
  · split at h
    case isTrue => cases h
    case isFalse hfits =>
      cases h
      exact (Nat.not_lt.1 hfits).trans_lt (by decide)

/-- Settles O46: the pseudocode of each of the three commands returns a value of its narrow range. -/
theorem narrowResultsAreZeroExtended : Obligations.NarrowResultsAreZeroExtended := fun _ _ _ hq =>
  ⟨result_lt_of_opOf_lt hq fun _ => mostSignificantBit_lt, result_lt_of_opOf_lt hq fun _ => leastSignificantBit_lt,
    result_lt_of_opOf_lt hq fun _ => addDelta_lt (lowHalf_lt _)⟩

/-! ### One transaction (rules R47, R74, R162) -/

theorem deliver_of_isFault_false {rsp : Response} (t : State) (h : rsp.status.isFault = false) : deliver rsp t = .response rsp t := by
  simp only [deliver, (fault?_eq_none_iff _).2 h]

theorem deliver_of_fault {rsp : Response} {f : Fault} (t : State) (h : rsp.status = .fault f) : deliver rsp t = .failed f t := by
  simp only [deliver, (fault?_eq_some_iff _ f).2 h]

/-- The unit after a transaction on the request: only the port and the counter of free results may differ. -/
def afterTransaction (u : State) (q : Request) : State :=
  { u with serving := none, draws := u.draws + (answerOf q).drawsUsed }

/-- A transaction delivers the answer to its request, which it takes off the channel again. -/
theorem transact_eq_deliver (u : State) (p : InFlight) : transact u p =
    deliver ((answerOf p.req).response (Config.freeResult u.draws)) (afterTransaction u p.req) := by
  have hstep := step_of_some (s := { u with serving := some p }) rfl
  simp only [transact, hstep, State.complete, List.getLast?_concat, List.dropLast_concat, afterTransaction]

/-- Settles O55: `transact` delivers the one response that the step on the host's request adds. -/
theorem transactionAnswersTheHostsRequest : Obligations.TransactionAnswersTheHostsRequest := by
  intro u p
  have hdeliver := transact_eq_deliver u p
  exact ⟨(answerOf p.req).response (Config.freeResult u.draws), afterTransaction u p.req, _,
    fun hok => hdeliver.trans (deliver_of_isFault_false _ hok), fun _ hfault => hdeliver.trans (deliver_of_fault _ hfault),
    step_of_some rfl, rfl, rfl, rfl, rfl⟩

end Sys2Proof.Machine

/-! PROOF. The decoder: its three tests as arithmetic on the command word, and the words it accepts. -/

namespace Sys2Proof.Machine

/-! ### The fields of a command word (rules R60, R63) -/

theorem opField_eq_mod (w : CmdWord) : opField w = w.toNat % 16 := by
  simp [opField]

theorem dirField_eq_div_mod (w : CmdWord) : dirField w = w.toNat / 16 % 2 := by
  simp [dirField, Nat.shiftRight_eq_div_pow]

theorem rsvField_eq_div (w : CmdWord) : rsvField w = w.toNat / 32 := by
  have hw : w.toNat / 32 < 2048 := Nat.div_lt_of_lt_mul w.isLt
  simp [rsvField, Nat.shiftRight_eq_div_pow, Nat.mod_eq_of_lt hw]

/-- The three fields are the whole word. -/
theorem cmdWord_eq_of_fields {v w : CmdWord} (hrsv : rsvField v = rsvField w) (hdir : dirField v = dirField w)
    (hop : opField v = opField w) : v = w := by
  rw [rsvField_eq_div, rsvField_eq_div] at hrsv
  rw [dirField_eq_div_mod, dirField_eq_div_mod] at hdir
  rw [opField_eq_mod, opField_eq_mod] at hop
  apply BitVec.eq_of_toNat_eq
  omega

/-! ### The three tests in their order (rule R65) -/

theorem decode_of_reservedBits {w : CmdWord} (hrsv : w.toNat / 32 ≠ 0) : decode w = .illegal .reservedBits := by
  rw [decode, rsvField_eq_div, if_pos hrsv]

theorem decode_of_reservedOpcode {w : CmdWord} (hrsv : w.toNat / 32 = 0) (hop : w.toNat % 16 = 0 ∨ 9 ≤ w.toNat % 16) :
    decode w = .illegal .reservedOpcode := by
  rw [decode, rsvField_eq_div, opField_eq_mod, if_neg (not_not.2 hrsv), if_pos hop]

theorem decode_of_directionBit {w : CmdWord} (hrsv : w.toNat / 32 = 0) (hpos : 1 ≤ w.toNat % 16) (hle : w.toNat % 16 ≤ 6)
    (hdir : w.toNat / 16 % 2 = 1) : decode w = .illegal .directionBit := by
  rw [decode, rsvField_eq_div, opField_eq_mod, dirField_eq_div_mod, if_neg (not_not.2 hrsv), if_neg (by omega),
    if_pos ⟨hdir, by omega⟩]

/-- The pairs `(OP, DIR)` that pass the second and the third test, each of which selects a command. -/
theorem instrOf_isSome : ∀ op < 9, ∀ dir < 2, 1 ≤ op → (dir = 1 → 7 ≤ op) → (instrOf op dir).isSome = true := by
  decide

/-- A command is selected by its own `OP` and `DIR` only. -/
theorem eq_op_dir_of_instrOf {op dir : Nat} {i : Instr} (h : instrOf op dir = some i) : op = i.op.toNat ∧ dir = i.dir.toNat := by
  unfold instrOf at h
  split at h <;> cases h <;> exact ⟨rfl, rfl⟩

/-- A word that passes the three tests is a command with its `OP` and `DIR`. -/
theorem decode_of_tests_passed {w : CmdWord} (hrsv : w.toNat / 32 = 0) (hpos : 1 ≤ w.toNat % 16) (hle : w.toNat % 16 ≤ 8)
    (hdir : w.toNat / 16 % 2 = 1 → 7 ≤ w.toNat % 16) :
    ∃ i : Instr, decode w = .legal i ∧ i.op.toNat = w.toNat % 16 ∧ i.dir.toNat = w.toNat / 16 % 2 := by
  obtain ⟨i, hi⟩ := Option.isSome_iff_exists.1
    (instrOf_isSome _ (Nat.lt_succ_of_le hle) _ (Nat.mod_lt (w.toNat / 16) two_pos) hpos hdir)
  obtain ⟨hop, hdir'⟩ := eq_op_dir_of_instrOf hi
  refine ⟨i, ?_, hop.symm, hdir'.symm⟩
  rw [decode, rsvField_eq_div, opField_eq_mod, dirField_eq_div_mod, if_neg (not_not.2 hrsv), if_neg (by omega),
    if_neg (by omega), hi]

/-- Settles O2: one lemma for each way the three tests can end. -/
theorem decodeTestsFieldsInOrder : Obligations.DecodeTestsFieldsInOrder := fun _ =>
  ⟨decode_of_reservedBits, decode_of_reservedOpcode, decode_of_directionBit, decode_of_tests_passed⟩

/-! ### The ten words (rules R64, R65) -/

/-- A word with a reserved `OP` is illegal, at the first test or at the second. -/
theorem decode_illegal_of_reservedOpcode {w : CmdWord} (hop : w.toNat % 16 = 0 ∨ 9 ≤ w.toNat % 16) :
    ∃ why, decode w = .illegal why := by
  by_cases hrsv : w.toNat / 32 = 0
  · exact ⟨_, decode_of_reservedOpcode hrsv hop⟩
  · exact ⟨_, decode_of_reservedBits hrsv⟩

/-- Settles O1: the ten words are the encoder's, which decode to their commands. -/
theorem tenCommandWordsDecode : Obligations.TenCommandWordsDecode :=
  ⟨decode_encode .msb, decode_encode .lsb, decode_encode .udivru, decode_encode .muldiv, decode_encode .muldivru,
    decode_encode .adddelta, decode_encode .sqrt0Rem, decode_encode .sqrt0Add, decode_encode .sqrt1Rem,
    decode_encode .sqrt1Add, fun _ => decode_illegal_of_reservedOpcode⟩

/-- Only a word that passed the three tests is legal; its fields are then its command's. -/
theorem fields_of_decode_legal {w : CmdWord} {i : Instr} (h : decode w = .legal i) :
    rsvField w = 0 ∧ dirField w = i.dir.toNat ∧ opField w = i.op.toNat := by
  unfold decode at h
  split at h
  · cases h
  next hrsv =>
    split at h
    · cases h
    · split at h
      · cases h
      · split at h <;> cases h
        next hi =>
          obtain ⟨hop, hdir⟩ := eq_op_dir_of_instrOf hi
          exact ⟨not_not.1 hrsv, hdir, hop⟩

theorem decode_eq_legal_iff (w : CmdWord) (i : Instr) : decode w = .legal i ↔ w = encode i := by
  constructor
  · intro h
    obtain ⟨hrsv, hdir, hop⟩ := fields_of_decode_legal h
    obtain ⟨hrsv', hop', hdir', -⟩ := encodingStatement i
    exact cmdWord_eq_of_fields (hrsv.trans hrsv'.symm) (hdir.trans hdir'.symm) (hop.trans hop'.symm)
  · rintro rfl
    exact decode_encode i

theorem encode_mem_legalWords (i : Instr) : encode i ∈ legalWords := by
  obtain ⟨-, -, -, hmem, -⟩ := encodingStatement i
  exact List.contains_iff_mem.1 hmem

/-- The commands in the order in which `legalWords` lists their words. -/
theorem legalWords_eq_map_encode : legalWords = [Instr.msb, .lsb, .udivru, .muldiv, .muldivru, .adddelta, .sqrt0Rem, .sqrt0Add,
    .sqrt1Rem, .sqrt1Add].map encode := by
  decide

theorem exists_decode_legal_iff_mem (w : CmdWord) : (∃ i, decode w = .legal i) ↔ w ∈ legalWords := by
  simp only [decode_eq_legal_iff]
  constructor
  · rintro ⟨i, rfl⟩
    exact encode_mem_legalWords i
  · intro hw
    rw [legalWords_eq_map_encode] at hw
    obtain ⟨i, -, rfl⟩ := List.mem_map.1 hw
    exact ⟨i, rfl⟩

/-- Settles O3: the decoder accepts a word only as the encoding of the command it answers. -/
theorem decodeAcceptsExactlyTheTenWords : Obligations.DecodeAcceptsExactlyTheTenWords :=
  ⟨exists_decode_legal_iff_mem, decode_eq_legal_iff⟩

/-! ### Illegal words (rules R63, R65, R70) -/

/-- The words that rule R70 lists are illegal, each at some test. -/
theorem decode_illegal_of_fields {w : CmdWord} (h : w.toNat % 16 = 0 ∨ 9 ≤ w.toNat % 16 ∨
    (w.toNat / 16 % 2 = 1 ∧ 1 ≤ w.toNat % 16 ∧ w.toNat % 16 ≤ 6) ∨ w.toNat / 32 ≠ 0) : ∃ why, decode w = .illegal why := by
  by_cases hrsv : w.toNat / 32 = 0
  · obtain hzero | hnine | ⟨hdir, hpos, hle⟩ | hrsv' := h
    · exact decode_illegal_of_reservedOpcode (.inl hzero)
    · exact decode_illegal_of_reservedOpcode (.inr hnine)
    · exact ⟨_, decode_of_directionBit hrsv hpos hle hdir⟩
    · exact absurd hrsv hrsv'
  · exact ⟨_, decode_of_reservedBits hrsv⟩

theorem step_of_illegal {s : State} {q : InFlight} {why : IllegalWord} (hq : s.serving = some q)
    (hdec : decode q.req.cmd = .illegal why) : step s = Spec.replied s q (.fault .illegalCommand) 0 := by
  simp only [step_of_some hq, answerOf, hdec, complete_illegalCommand]

/-- Settles O4: a word of rule R70's list is rejected before any slot is read; any other passed the tests of rule R65. -/
theorem illegalWordsRaiseIllegalCommand : Obligations.IllegalWordsRaiseIllegalCommand := by
  intro s q hq
  refine ⟨fun hill => ?_, fun hlegal => ?_⟩
  · obtain ⟨why, hdec⟩ := decode_illegal_of_fields hill
    exact step_of_illegal hq hdec
  · obtain ⟨i, hdec, hop, hdir⟩ := decode_of_tests_passed (w := q.req.cmd) (by omega) (by omega) (by omega) (by omega)
    exact ⟨(exists_decode_legal_iff_mem _).1 ⟨i, hdec⟩, i, hdec, hop, hdir, step_eq_exec_of_some hdec hq⟩

end Sys2Proof.Machine

/-! PROOF. What a request's slots say: issuing a decoded request again, the slots a command reads, and the operand check against the pseudocode. -/

namespace Sys2Proof.Machine

/-! ### Issuing a decoded request again (rules R65, R66, R68) -/

theorem signed128_range {p : Nat} (h : p < 2 ^ 128) : -2 ^ 127 ≤ signed128 p ∧ signed128 p < 2 ^ 127 := by
  unfold signed128
  split <;> omega

theorem ofInt_signed128 (p : Nat) : BitVec.ofInt 128 (signed128 p) = BitVec.ofNat 128 p := by
  unfold signed128
  split
  · exact BitVec.ofInt_natCast 128 p
  · apply BitVec.eq_of_toNat_eq
    rw [BitVec.toNat_ofInt, BitVec.toNat_ofNat]
    omega

/-- A 128-bit slot holds an operand exactly when its high half is zero; the low half is then the whole slot. -/
theorem toNat_lt_of_decodeOperand {k : OperandKind} {w : Word} {v : Int} (hk : k ≠ .u256) (h : decodeOperand k w = some v) :
    w.toNat < 2 ^ 128 := by
  rw [← highHalfZero_iff]
  cases k with
  | u256 => exact absurd rfl hk
  | u128 => exact (Option.ite_none_right_eq_some.1 h).1
  | i128 => exact (Option.ite_none_right_eq_some.1 h).1

/-- What a slot decodes to lies in its operand's range and has the slot as its pattern. -/
theorem holds_and_encodeOperand_of_decodeOperand {k : OperandKind} {w : Word} {v : Int} (h : decodeOperand k w = some v) :
    k.holds v = true ∧ encodeOperand k v = w := by
  cases k with
  | u256 =>
    cases h
    exact ⟨by simp only [OperandKind.holds, decide_eq_true_iff]; omega, by simp [encodeOperand]⟩
  | u128 =>
    have hw := toNat_lt_of_decodeOperand (by decide) h
    rw [decodeOperand_u128 hw] at h
    cases h
    exact ⟨by simp only [OperandKind.holds, decide_eq_true_iff]; omega, by simp [encodeOperand]⟩
  | i128 =>
    have hw := toNat_lt_of_decodeOperand (by decide) h
    rw [decodeOperand_i128 hw] at h
    cases h
    refine ⟨decide_eq_true (signed128_range hw), BitVec.eq_of_toNat_eq ?_⟩
    rw [encodeOperand, ofInt_signed128, BitVec.toNat_setWidth_of_le (by decide), BitVec.toNat_ofNat, Nat.mod_eq_of_lt hw]

/-- The used slots decode to one operand each, in its range, and the operands encode to the used slots. -/
theorem encodeOperands_of_decodeOperands {ks : List OperandKind} {ws : List Word} {vs : List Int}
    (h : decodeOperands ks ws = some vs) :
    vs.length = ks.length ∧ (List.zipWith OperandKind.holds ks vs).all id = true ∧
      List.zipWith encodeOperand ks vs = ws.take ks.length := by
  induction ks generalizing ws vs with
  | nil => cases h; exact ⟨rfl, rfl, rfl⟩
  | cons k ks ih =>
    cases ws with
    | nil => cases h
    | cons w ws =>
      unfold decodeOperands at h
      split at h
      · cases h
      next v hv =>
        split at h <;> cases h
        next vs hvs =>
          obtain ⟨hholds, hpat⟩ := holds_and_encodeOperand_of_decodeOperand hv
          obtain ⟨hlen, hall, hpats⟩ := ih hvs
          exact ⟨congrArg Nat.succ hlen, by simp [hholds, hall], by simp [hpat, hpats]⟩

/-- A request that decodes has a legal word, and its slots hold the operands. -/
theorem decodeRequest_eq_command {q : Request} {c : Command} (h : decodeRequest q = .command c) :
    decode q.cmd = .legal c.instr ∧ decodeOperands c.instr.operandKinds [q.a, q.b, q.c] = some c.operands := by
  unfold decodeRequest at h
  split at h
  · cases h
  next hdec =>
    split at h <;> cases h
    next hvs => exact ⟨hdec, hvs⟩

/-- Settles O6: the word is the command's only one, and each used slot is the pattern of its operand. -/
theorem decodedRequestReencodes : Obligations.DecodedRequestReencodes := by
  intro q c h
  obtain ⟨hdec, hvs⟩ := decodeRequest_eq_command h
  obtain ⟨hlen, hall, hslots⟩ := encodeOperands_of_decodeOperands hvs
  have hslot : ∀ j < c.instr.operandKinds.length,
      (List.zipWith encodeOperand c.instr.operandKinds c.operands).getD j 0 = [q.a, q.b, q.c].getD j 0 := by
    intro j hj
    rw [hslots, List.getD_eq_getElem?_getD, List.getElem?_take_of_lt hj, ← List.getD_eq_getElem?_getD]
  exact ⟨(command_wf_iff c).2 ⟨hlen, hall⟩, ((decode_eq_legal_iff _ _).1 hdec).symm, hslot 0, hslot 1, hslot 2⟩

/-! ### Unused slots (rules R67, R163) -/

/-- The two requests have the same values in the slots that the command uses. -/
def AgreeOnUsedSlots (i : Instr) (p q : Request) : Prop :=
  (1 ≤ i.operandKinds.length → p.a = q.a) ∧ (2 ≤ i.operandKinds.length → p.b = q.b) ∧ (3 ≤ i.operandKinds.length → p.c = q.c)

/-- The operand check and the pseudocode of a command read the used slots only. -/
theorem answerTo_congr_usedSlots {i : Instr} {p q : Request} (h : AgreeOnUsedSlots i p q) :
    answerTo i (opOf i) p = answerTo i (opOf i) q := by
  obtain ⟨ha, hb, hc⟩ := h
  cases i with
  | msb | lsb => simp only [answerTo, checkOperands, opOf, ha (by decide)]
  | udivru | adddelta => simp only [answerTo, checkOperands, opOf, ha (by decide), hb (by decide)]
  | muldiv | muldivru | sqrt0Rem | sqrt0Add | sqrt1Rem | sqrt1Add =>
    simp only [answerTo, checkOperands, checkLiquiditySlot, opOf, ha (by decide), hb (by decide), hc (by decide)]

/-- The unit's answer to a legal word is its command's. -/
theorem answerOf_of_legal {q : Request} {i : Instr} (h : decode q.cmd = .legal i) : answerOf q = answerTo i (opOf i) q := by
  simp only [answerOf, h]

/-- Settles O13: both steps answer with one answer of the command, each with its own free value. -/
theorem unusedSlotsAreNotRead : Obligations.UnusedSlotsAreNotRead := by
  intro i s t q p hs ht hdec hcmd ha hb hc
  have hanswer : answerOf p.req = answerOf q.req := by
    rw [answerOf_of_legal (hcmd ▸ hdec), answerOf_of_legal hdec, answerTo_congr_usedSlots ⟨ha, hb, hc⟩]
  refine ⟨(answerOf q.req).response (Config.freeResult s.draws), (answerOf q.req).response (Config.freeResult t.draws),
    _, _, step_of_some hs, step_of_some ht, rfl, ?_, responses_agree _ _ _⟩
  rw [complete_responses, hanswer]

/-! ### The faults of the pseudocode (rules R68, R91, R162) -/

theorem andThen_ne_raise {x : Answer} {f : Nat → Answer} {e : Raise} (hx : x ≠ .raise e) (hf : ∀ u, f u ≠ .raise e) :
    x.andThen f ≠ .raise e := by
  intro h
  obtain h | ⟨u, -, h⟩ := andThen_eq_raise h
  · exact hx h
  · exact hf u h

section Faults
variable (f : Fault)

theorem indexAnswer_ne_fault (o : Option Nat) : indexAnswer o ≠ .raise (.fault f) := by
  cases o <;> rintro ⟨⟩

theorem mostSignificantBit_ne_fault (x : Nat) : mostSignificantBit x ≠ .raise (.fault f) := by
  unfold mostSignificantBit
  split
  · rintro ⟨⟩
  · exact indexAnswer_ne_fault f _

theorem leastSignificantBit_ne_fault (x : Nat) : leastSignificantBit x ≠ .raise (.fault f) := by
  unfold leastSignificantBit
  split
  · rintro ⟨⟩
  · exact indexAnswer_ne_fault f _

theorem addDelta_ne_fault (l : Nat) (d : Int) : addDelta l d ≠ .raise (.fault f) := by
  unfold addDelta
  split <;> split <;> rintro ⟨⟩

theorem mulDiv_ne_fault (x y d : Nat) : mulDiv x y d ≠ .raise (.fault f) := by
  obtain ⟨-, -, he⟩ | ⟨-, -, he⟩ | ⟨-, -, he⟩ := mulDiv_cases x y d <;> rw [he] <;> rintro ⟨⟩

theorem mulDivRoundUp_ne_fault (x y d : Nat) : mulDivRoundUp x y d ≠ .raise (.fault f) := by
  refine andThen_ne_raise (mulDiv_ne_fault f x y d) fun r => ?_
  split
  · split <;> rintro ⟨⟩
  · rintro ⟨⟩

theorem checkPrice_ne_fault (p : Nat) : checkPrice p ≠ .raise (.fault f) := by
  obtain ⟨-, he⟩ | ⟨-, he⟩ := checkPrice_cases p <;> rw [he] <;> rintro ⟨⟩

/-- Rule R90: with a nonzero divisor `UDIVRU` raises nothing. -/
theorem unsafeDivRoundUp_ne_fault {x y : Nat} (hy : y ≠ 0) : unsafeDivRoundUp x y ≠ .raise (.fault f) := by
  rw [unsafeDivRoundUp_pos hy]
  rintro ⟨⟩

theorem fallbackQuotient_ne_fault {n s : Nat} (hs : s ≠ 0) : fallbackQuotient n s ≠ .raise (.fault f) := by
  unfold fallbackQuotient
  split
  · exact unsafeDivRoundUp_ne_fault f hs
  · rintro ⟨⟩

/-- The fallback's divisor is at least the amount, which is not 0 here. -/
theorem sqrt0AddBody_ne_fault {n p amt : Nat} (hamt : amt ≠ 0) : sqrt0AddBody n p amt ≠ .raise (.fault f) := by
  refine andThen_ne_raise ?_ (checkPrice_ne_fault f)
  split
  · exact mulDivRoundUp_ne_fault f _ _ _
  · exact fallbackQuotient_ne_fault f fun h => hamt (Nat.add_eq_zero_iff.1 h).2

theorem sqrt0RemBody_ne_fault (n p amt : Nat) : sqrt0RemBody n p amt ≠ .raise (.fault f) := by
  unfold sqrt0RemBody
  split
  · rintro ⟨⟩
  · exact andThen_ne_raise (mulDivRoundUp_ne_fault f _ _ _) (checkPrice_ne_fault f)

theorem nextSqrtPriceFromAmount0RoundingUp_ne_fault (p l amt : Nat) (add : Bool) :
    nextSqrtPriceFromAmount0RoundingUp p l amt add ≠ .raise (.fault f) := by
  unfold nextSqrtPriceFromAmount0RoundingUp
  split
  · exact checkPrice_ne_fault f p
  next hamt =>
    split
    · exact sqrt0AddBody_ne_fault f hamt
    · exact sqrt0RemBody_ne_fault f _ _ _

theorem token1QuotientDown_ne_fault (l amt : Nat) : token1QuotientDown l amt ≠ .raise (.fault f) := by
  unfold token1QuotientDown
  split
  · split <;> rintro ⟨⟩
  · exact mulDiv_ne_fault f _ _ _

theorem token1QuotientUp_ne_fault (l amt : Nat) : token1QuotientUp l amt ≠ .raise (.fault f) := by
  unfold token1QuotientUp
  split
  · split
    · rintro ⟨⟩
    next hl => exact unsafeDivRoundUp_ne_fault f hl
  · exact mulDivRoundUp_ne_fault f _ _ _

theorem sqrt1RemBody_ne_fault (p l amt : Nat) : sqrt1RemBody p l amt ≠ .raise (.fault f) := by
  refine andThen_ne_raise (token1QuotientUp_ne_fault f l amt) fun q => ?_
  split
  · rintro ⟨⟩
  · exact checkPrice_ne_fault f _

theorem nextSqrtPriceFromAmount1RoundingDown_ne_fault (p l amt : Nat) (add : Bool) :
    nextSqrtPriceFromAmount1RoundingDown p l amt add ≠ .raise (.fault f) := by
  cases add with
  | true => exact andThen_ne_raise (token1QuotientDown_ne_fault f l amt) fun _ => checkPrice_ne_fault f _
  | false => exact sqrt1RemBody_ne_fault f p l amt

end Faults

/-- The one fault that a command's pseudocode raises: `UDIVRU` by zero. -/
theorem opOf_eq_fault {i : Instr} {q : Request} {f : Fault} (h : opOf i q = .raise (.fault f)) :
    i = .udivru ∧ q.b = 0 ∧ f = .unsafeDivByZero := by
  cases i with
  | msb => exact absurd h (mostSignificantBit_ne_fault f _)
  | lsb => exact absurd h (leastSignificantBit_ne_fault f _)
  | udivru =>
    by_cases hb : q.b.toNat = 0
    · rw [opOf, hb, unsafeDivRoundUp_zero] at h
      cases h
      exact ⟨rfl, BitVec.eq_of_toNat_eq hb, rfl⟩
    · exact absurd h (unsafeDivRoundUp_ne_fault f hb)
  | muldiv => exact absurd h (mulDiv_ne_fault f _ _ _)
  | muldivru => exact absurd h (mulDivRoundUp_ne_fault f _ _ _)
  | adddelta => exact absurd h (addDelta_ne_fault f _ _)
  | sqrt0Rem | sqrt0Add => exact absurd h (nextSqrtPriceFromAmount0RoundingUp_ne_fault f _ _ _ _)
  | sqrt1Rem | sqrt1Add => exact absurd h (nextSqrtPriceFromAmount1RoundingDown_ne_fault f _ _ _ _)

/-! ### The operand check (rules R68, R165) -/

theorem highHalfZero_eq_false_iff (w : Word) : highHalfZero w = false ↔ 2 ^ 128 ≤ w.toNat := by
  rw [← Bool.not_eq_true, highHalfZero_iff, Nat.not_lt]

theorem checkLiquiditySlot_eq_some_iff (q : Request) : checkLiquiditySlot q = some .illegalOperand ↔ 2 ^ 128 ≤ q.b.toNat := by
  rw [← highHalfZero_eq_false_iff, checkLiquiditySlot]
  cases highHalfZero q.b <;> simp

/-- The commands with 128-bit operand slots, and the slots that they check. -/
theorem checkOperands_eq_some_iff (i : Instr) (q : Request) : checkOperands i q = some .illegalOperand ↔
    (i = .adddelta ∧ (2 ^ 128 ≤ q.a.toNat ∨ 2 ^ 128 ≤ q.b.toNat)) ∨
    ((i = .sqrt0Rem ∨ i = .sqrt0Add ∨ i = .sqrt1Rem ∨ i = .sqrt1Add) ∧ 2 ^ 128 ≤ q.b.toNat) := by
  cases i with
  | msb | lsb | udivru | muldiv | muldivru => simp [checkOperands]
  | adddelta =>
    simp only [← highHalfZero_eq_false_iff, checkOperands]
    cases highHalfZero q.a <;> cases highHalfZero q.b <;> simp
  | sqrt0Rem | sqrt0Add | sqrt1Rem | sqrt1Add => simp [checkOperands, checkLiquiditySlot_eq_some_iff]

/-- `IllegalOperand` comes from the operand check and from no pseudocode. -/
theorem answerTo_eq_illegalOperand_iff (i : Instr) (q : Request) :
    answerTo i (opOf i) q = .raise (.fault .illegalOperand) ↔ checkOperands i q = some .illegalOperand := by
  obtain ⟨hcheck, he⟩ | ⟨hcheck, he⟩ := answerTo_cases i (opOf i) q
  · rw [he, hcheck]
    refine iff_of_false (fun h => ?_) (by rintro ⟨⟩)
    obtain ⟨-, -, hf⟩ := opOf_eq_fault h
    cases hf
  · rw [he, hcheck]
    exact iff_of_true rfl rfl

theorem response_status_eq_fault_iff (x : Answer) (free : Word) (f : Fault) :
    (x.response free).status = .fault f ↔ x = .raise (.fault f) := by
  rw [response_status]
  rcases x with v | e | g <;> simp [Raise.status]

/-- An answer that gives the request this response and changes nothing else has this response. -/
theorem response_of_next_complete_eq_replied {s : State} {q : InFlight} {x : Answer} {st : Status} {r : Word}
    (h : Host.Outcome.next (s.complete q.who x) = Spec.replied s q st r) :
    x.response (Config.freeResult s.draws) = { status := st, r := r } := by
  rw [Host.Outcome.next.injEq] at h
  have hrsp := congrArg State.responses h
  rw [complete_responses, List.append_cancel_left_eq, List.singleton_inj, Addressed.mk.injEq] at hrsp
  exact hrsp.2

/-- The answer decides whether the request is answered with `IllegalOperand` and `R = 0`. -/
theorem next_complete_eq_illegalOperand_iff (s : State) (q : InFlight) (x : Answer) :
    Host.Outcome.next (s.complete q.who x) = Spec.replied s q (.fault .illegalOperand) 0 ↔ x = .raise (.fault .illegalOperand) := by
  constructor
  · intro h
    exact (response_status_eq_fault_iff x _ _).1 (congrArg Response.status (response_of_next_complete_eq_replied h))
  · rintro rfl
    rw [complete_illegalOperand]

/-- Settles O14: the response is `IllegalOperand` exactly when the answer is, that is when the operand check raises it. -/
theorem highBitsRaiseIllegalOperandFirst : Obligations.HighBitsRaiseIllegalOperandFirst := by
  intro i s q hq hdec
  rw [step_of_some hq, next_complete_eq_illegalOperand_iff, answerOf_of_legal hdec, answerTo_eq_illegalOperand_iff,
    checkOperands_eq_some_iff]

end Sys2Proof.Machine

/-! PROOF. The host's lines: what the pseudo-instructions compute, and what a line of a program does with its response. -/

namespace Sys2Proof.Machine

/-! ### Pseudo-instructions (rule R73) -/

theorem exec_muldiv_of_some {s : State} {q : InFlight} (h : s.serving = some q) :
    exec .muldiv s = .next (s.complete q.who (mulDiv q.req.a.toNat q.req.b.toNat q.req.c.toNat)) :=
  exec_of_some h

theorem exec_muldivru_of_some {s : State} {q : InFlight} (h : s.serving = some q) :
    exec .muldivru s = .next (s.complete q.who (mulDivRoundUp q.req.a.toNat q.req.b.toNat q.req.c.toNat)) :=
  exec_of_some h

/-- With a denominator of 1 the quotient is the product, if that fits. -/
theorem mulDiv_one_fits {x y : Nat} (h : x * y < 2 ^ 256) : mulDiv x y 1 = .ret (x * y) := by
  rw [mulDiv_fits Nat.one_ne_zero (by rwa [Nat.div_one]), Nat.div_one]

theorem mulDiv_one_overflows {x y : Nat} (h : 2 ^ 256 ≤ x * y) : mulDiv x y 1 = .raise (.error .resultOverflow) :=
  mulDiv_overflows Nat.one_ne_zero (by rwa [Nat.div_one])

/-- With a factor of 1 the quotient of a 256-bit value always fits. -/
theorem mulDiv_mul_one {x d : Nat} (hx : x < 2 ^ 256) (hd : d ≠ 0) : mulDiv x 1 d = .ret (x / d) := by
  have h := mulDiv_fits (x := x) (y := 1) hd (by rw [Nat.mul_one]; exact (Nat.div_le_self x d).trans_lt hx)
  rwa [Nat.mul_one] at h

/-- A quotient rounded up is at most the value, so it fits too. -/
theorem mulDivRoundUp_mul_one {x d : Nat} (hx : x < 2 ^ 256) (hd : d ≠ 0) : mulDivRoundUp x 1 d = .ret ((x + d - 1) / d) := by
  have hpos := Nat.pos_of_ne_zero hd
  have hle : ceilDiv x d ≤ x := (ceilDiv_le_iff x d x hpos).2 (Nat.le_mul_of_pos_right x hpos)
  obtain ⟨-, -, -, hup⟩ := mulDivRoundUp_of_ret (mulDiv_mul_one hx hd)
  rw [Nat.mul_one] at hup
  obtain ⟨-, he⟩ | ⟨hmax, -⟩ := hup
  · rw [he, ceilDiv_eq_div x d hpos]
  · omega

theorem mulDiv_mul_one_zero {x : Nat} (hx : x < 2 ^ 256) : mulDiv x 1 0 = .raise (.error .divisionByZero) :=
  mulDiv_zero_fits (by rwa [Nat.mul_one])

/-- Settles O32: each line expands to its command's, and a factor or a denominator of 1 drops out of the multiply-divide. -/
theorem pseudoInstructionsCompute : Obligations.PseudoInstructionsCompute := by
  refine ⟨fun bs x y => ⟨rfl, rfl, rfl⟩, fun s q hq => ?_⟩
  rw [exec_muldiv_of_some hq, exec_muldivru_of_some hq]
  have ha := q.req.a.isLt
  have hone : (1 : Word).toNat = 1 := rfl
  have hzero : (0 : Word).toNat = 0 := rfl
  refine ⟨fun hc hfits => ?_, fun hc hover => ?_, fun hb hc => ?_, fun hb hc => ?_, fun hb hc => ?_⟩
  · rw [hc, hone, mulDiv_one_fits hfits, complete_ret]
  · rw [hc, hone, mulDiv_one_overflows hover, complete_error]
  · rw [hb, hone, mulDiv_mul_one ha (BitVec.toNat_ne.1 hc), complete_ret]
  · rw [hb, hone, mulDivRoundUp_mul_one ha (BitVec.toNat_ne.1 hc), complete_ret]
  · rw [hb, hc, hone, hzero, mulDivRoundUp_of_raise (mulDiv_mul_one_zero ha), mulDiv_mul_one_zero ha, complete_error]
    exact ⟨rfl, rfl⟩

/-! ### The host's line (rule R74) -/

/-- A line that assembles and is answered with a response: the host binds the response, and the status decides how the run stands. -/
theorem run_issue_of_response {name : ResultName} {cmd : HostCommand} {goesOn : Bool} {h : HostState} {q : Request} {rsp : Response}
    {u : State} (hrun : h.run = .going) (hcmd : cmd.request h.bindings = .request q)
    (hrsp : transact h.unit { who := 0, req := q } = .response rsp u) : (HostProgram.issue name cmd goesOn).run h =
      { unit := u, bindings := { name := name, rsp := rsp } :: h.bindings, run := HostRun.after goesOn rsp.status } := by
  simp only [HostProgram.run, if_pos hrun, issueCommand, hcmd, hrsp, HostState.receive]

/-- Settles O54: the three fields of the host's state after a response. -/
theorem hostBindsAndStops : Obligations.HostBindsAndStops := by
  intro name cmd goesOn h q rsp u hrun hcmd hrsp
  rw [run_issue_of_response hrun hcmd hrsp]
  exact ⟨rfl, rfl, fun hok => congrArg (HostRun.after goesOn) hok, fun e he => congrArg (HostRun.after goesOn) he⟩

end Sys2Proof.Machine

/-! PROOF. The bit scanner: what makes an index the highest or the lowest set bit, that both scans find exactly that index,
and how the two indices relate to counts of zeros, to each other and to powers of two. -/

namespace Sys2Proof.Machine

/-! ### The highest set bit (rules R80, R82, R83) -/

/-- Bit `i` is the highest set bit of `x`: the property that rule R80 states. -/
def HighestBit (x i : Nat) : Prop := 2 ^ i ≤ x ∧ x < 2 ^ (i + 1)

theorem HighestBit.unique {x i k : Nat} (hi : HighestBit x i) (hk : HighestBit x k) : i = k := by
  obtain ⟨hile, hilt⟩ := hi
  obtain ⟨hkle, hklt⟩ := hk
  exact (Nat.log_eq_of_pow_le_of_lt_pow hile hilt).symm.trans (Nat.log_eq_of_pow_le_of_lt_pow hkle hklt)

theorem HighestBit.ne_zero {x i : Nat} (h : HighestBit x i) : x ≠ 0 :=
  (Nat.two_pow_pos i).trans_le h.1 |>.ne'

theorem HighestBit.lt_of_lt_two_pow {x i n : Nat} (h : HighestBit x i) (hx : x < 2 ^ n) : i < n :=
  (Nat.pow_lt_pow_iff_right Nat.one_lt_two).1 (h.1.trans_lt hx)

theorem highestBit_two_pow (i : Nat) : HighestBit (2 ^ i) i :=
  ⟨Nat.le_refl _, Nat.pow_lt_pow_succ Nat.one_lt_two⟩

/-- The zeros above the highest set bit of a nonzero pattern fill the places down from 255. -/
theorem highestBit_clz {x : Word} (hx : x ≠ 0) : HighestBit x.toNat (255 - x.clz).toNat := by
  have hclz : x.clz.toNat < 256 := BitVec.clz_lt_iff_ne_zero.2 hx
  have hsub : (255 - x.clz).toNat = 255 - x.clz.toNat := BitVec.toNat_sub_of_le (Nat.le_of_lt_succ hclz)
  have hlt : x.toNat < 2 ^ (256 - x.clz.toNat) := BitVec.toNat_lt_two_pow_sub_clz
  rw [hsub]
  refine ⟨BitVec.two_pow_sub_clz_le_toNat_of_ne_zero (by decide) hx, ?_⟩
  rwa [show 255 - x.clz.toNat + 1 = 256 - x.clz.toNat by omega]

/-! ### The lowest set bit (rules R81, R82, R83) -/

/-- Bit `j` is the lowest set bit of `x`: the property that rule R81 states. -/
def LowestBit (x j : Nat) : Prop := x % 2 ^ j = 0 ∧ x % 2 ^ (j + 1) ≠ 0

/-- No power of two above the lowest set bit divides the value. -/
theorem LowestBit.le_of_mod_eq_zero {x j k : Nat} (h : LowestBit x j) (hk : x % 2 ^ k = 0) : k ≤ j := by
  by_contra hjk
  have hdvd : 2 ^ (j + 1) ∣ x := (Nat.pow_dvd_pow 2 (Nat.not_le.1 hjk)).trans (Nat.dvd_of_mod_eq_zero hk)
  exact h.2 (Nat.mod_eq_zero_of_dvd hdvd)

theorem LowestBit.unique {x j k : Nat} (hj : LowestBit x j) (hk : LowestBit x k) : j = k :=
  Nat.le_antisymm (hk.le_of_mod_eq_zero hj.1) (hj.le_of_mod_eq_zero hk.1)

theorem LowestBit.ne_zero {x j : Nat} (h : LowestBit x j) : x ≠ 0 := by
  rintro rfl
  exact h.2 (Nat.zero_mod _)

theorem LowestBit.two_pow_le {x j : Nat} (h : LowestBit x j) : 2 ^ j ≤ x :=
  Nat.le_of_dvd (Nat.pos_of_ne_zero h.ne_zero) (Nat.dvd_of_mod_eq_zero h.1)

theorem LowestBit.lt_of_lt_two_pow {x j n : Nat} (h : LowestBit x j) (hx : x < 2 ^ n) : j < n :=
  (Nat.pow_lt_pow_iff_right Nat.one_lt_two).1 (h.two_pow_le.trans_lt hx)

theorem lowestBit_two_pow (j : Nat) : LowestBit (2 ^ j) j := by
  refine ⟨Nat.mod_self _, ?_⟩
  rw [Nat.mod_eq_of_lt (Nat.pow_lt_pow_succ Nat.one_lt_two)]
  exact (Nat.two_pow_pos j).ne'

/-- The bits below the count of trailing zeros are clear, so they are no part of the value, and the bit at the count is set. -/
theorem lowestBit_ctz {x : Word} (hx : x ≠ 0) : LowestBit x.toNat x.ctz.toNat := by
  constructor
  · refine Nat.eq_of_testBit_eq fun i => ?_
    rw [Nat.testBit_mod_two_pow, Nat.zero_testBit, Bool.and_eq_false_imp, decide_eq_true_iff]
    exact BitVec.getLsbD_false_of_lt_ctz
  · intro hmod
    have hset : (x.toNat % 2 ^ (x.ctz.toNat + 1)).testBit x.ctz.toNat = true := by
      rw [Nat.testBit_mod_two_pow, Bool.and_eq_true, decide_eq_true_iff]
      exact ⟨Nat.lt_succ_self _, BitVec.getLsbD_true_ctz_of_ne_zero hx⟩
    rw [hmod, Nat.zero_testBit] at hset
    cases hset

/-! ### The two bits together (rule R81) -/

theorem LowestBit.le_highestBit {x i j : Nat} (hj : LowestBit x j) (hi : HighestBit x i) : j ≤ i :=
  Nat.le_of_lt_succ (hj.lt_of_lt_two_pow hi.2)

/-- A value whose only set bit is `i`: what is left of it above `2^i` is the remainder, which is zero. -/
theorem eq_two_pow_of_bits_eq {x i : Nat} (hi : HighestBit x i) (hj : LowestBit x i) : x = 2 ^ i := by
  obtain ⟨hle, hlt⟩ := hi
  obtain ⟨hmod, -⟩ := hj
  have hrest : x - 2 ^ i < 2 ^ i := by omega
  rw [Nat.mod_eq_sub_mod hle, Nat.mod_eq_of_lt hrest] at hmod
  exact Nat.le_antisymm (Nat.le_of_sub_eq_zero hmod) hle

/-- The highest and the lowest set bit are the same exactly in a power of two. -/
theorem highestBit_eq_lowestBit_iff {x i j : Nat} (hi : HighestBit x i) (hj : LowestBit x j) : i = j ↔ ∃ k, x = 2 ^ k := by
  constructor
  · rintro rfl
    exact ⟨i, eq_two_pow_of_bits_eq hi hj⟩
  · rintro ⟨k, rfl⟩
    exact (hi.unique (highestBit_two_pow k)).trans ((lowestBit_two_pow k).unique hj)

/-! ### The scans (rules R80, R81) -/

/-- A scan for a property that at most one index has answers an index exactly when it is in the range and has the property. -/
theorem indexAnswer_find?_range_eq_ret_iff {n v : Nat} {P : Nat → Prop} [DecidablePred P] (huniq : ∀ i k, P i → P k → i = k) :
    indexAnswer ((List.range n).find? (fun i => decide (P i))) = .ret v ↔ v < n ∧ P v := by
  constructor
  · intro h
    refine ⟨indexAnswer_find?_range_lt h, ?_⟩
    cases hf : (List.range n).find? (fun i => decide (P i)) with
    | none => rw [hf] at h; cases h
    | some i =>
      rw [hf] at h
      cases h
      exact of_decide_eq_true (List.find?_some (p := fun k => decide (P k)) hf)
  · rintro ⟨hv, hp⟩
    have hbelow : ∀ k < v, (!decide (P k)) = true := by
      intro k hk
      rw [Bool.not_eq_true', decide_eq_false_iff_not]
      exact fun hpk => hk.ne (huniq k v hpk hp)
    rw [List.find?_range_eq_some.2 ⟨decide_eq_true hp, List.mem_range.2 hv, hbelow⟩]
    rfl

theorem mostSignificantBit_zero : mostSignificantBit 0 = .raise (.error .zeroHasNoBit) := rfl

theorem leastSignificantBit_zero : leastSignificantBit 0 = .raise (.error .zeroHasNoBit) := rfl

theorem mostSignificantBit_eq_ret_iff {x v : Nat} (hx : x < 2 ^ 256) : mostSignificantBit x = .ret v ↔ HighestBit x v := by
  by_cases h0 : x = 0
  · rw [h0, mostSignificantBit_zero]
    exact iff_of_false nofun fun h => h.ne_zero rfl
  · rw [mostSignificantBit, if_neg h0, indexAnswer_find?_range_eq_ret_iff]
    · exact and_iff_right_of_imp fun h => HighestBit.lt_of_lt_two_pow h hx
    · exact fun _ _ => HighestBit.unique

theorem leastSignificantBit_eq_ret_iff {x v : Nat} (hx : x < 2 ^ 256) : leastSignificantBit x = .ret v ↔ LowestBit x v := by
  by_cases h0 : x = 0
  · rw [h0, leastSignificantBit_zero]
    exact iff_of_false nofun fun h => h.ne_zero rfl
  · rw [leastSignificantBit, if_neg h0, indexAnswer_find?_range_eq_ret_iff]
    · exact and_iff_right_of_imp fun h => LowestBit.lt_of_lt_two_pow h hx
    · exact fun _ _ => LowestBit.unique

/-! ### The commands `MSB` and `LSB` (rules R80-R83) -/

/-- The response of a command that returns a 256-bit value is `OK` with the value it returns. -/
theorem exec_eq_replied_ok_iff {i : Instr} {s : State} {q : InFlight} {r : Word} (hq : s.serving = some q)
    (hcheck : checkOperands i q.req = none) (hlt : ∀ v, opOf i q.req = .ret v → v < 2 ^ 256) :
    exec i s = Spec.replied s q .ok r ↔ opOf i q.req = .ret r.toNat := by
  constructor
  · intro h
    obtain ⟨v, hret, rfl⟩ := exec_eq_replied_ok hq h
    rw [BitVec.toNat_ofNat, Nat.mod_eq_of_lt (hlt v hret), hret]
  · intro hret
    rw [exec_of_some hq, answerTo_of_check hcheck, hret, complete_ret, BitVec.ofNat_toNat, BitVec.setWidth_eq]

section Commands
variable {s : State} {q : InFlight} (hq : s.serving = some q)
include hq

theorem exec_msb_of_some : exec .msb s = .next (s.complete q.who (mostSignificantBit q.req.a.toNat)) :=
  exec_of_some hq

theorem exec_lsb_of_some : exec .lsb s = .next (s.complete q.who (leastSignificantBit q.req.a.toNat)) :=
  exec_of_some hq

theorem exec_msb_of_zero (ha : q.req.a = 0) : exec .msb s = Spec.replied s q (.error .zeroHasNoBit) 0 := by
  have hzero : q.req.a.toNat = 0 := congrArg BitVec.toNat ha
  rw [exec_msb_of_some hq, hzero, mostSignificantBit_zero, complete_error]

theorem exec_lsb_of_zero (ha : q.req.a = 0) : exec .lsb s = Spec.replied s q (.error .zeroHasNoBit) 0 := by
  have hzero : q.req.a.toNat = 0 := congrArg BitVec.toNat ha
  rw [exec_lsb_of_some hq, hzero, leastSignificantBit_zero, complete_error]

theorem exec_msb_of_highestBit {i : Nat} (h : HighestBit q.req.a.toNat i) :
    exec .msb s = Spec.replied s q .ok (BitVec.ofNat 256 i) := by
  rw [exec_msb_of_some hq, (mostSignificantBit_eq_ret_iff q.req.a.isLt).2 h, complete_ret]

theorem exec_lsb_of_lowestBit {j : Nat} (h : LowestBit q.req.a.toNat j) :
    exec .lsb s = Spec.replied s q .ok (BitVec.ofNat 256 j) := by
  rw [exec_lsb_of_some hq, (leastSignificantBit_eq_ret_iff q.req.a.isLt).2 h, complete_ret]

theorem exec_msb_eq_ok_iff {r : Word} : exec .msb s = Spec.replied s q .ok r ↔ HighestBit q.req.a.toNat r.toNat :=
  (exec_eq_replied_ok_iff (i := .msb) hq rfl fun _ h => (mostSignificantBit_lt h).trans (by decide)).trans
    (mostSignificantBit_eq_ret_iff q.req.a.isLt)

theorem exec_lsb_eq_ok_iff {r : Word} : exec .lsb s = Spec.replied s q .ok r ↔ LowestBit q.req.a.toNat r.toNat :=
  (exec_eq_replied_ok_iff (i := .lsb) hq rfl fun _ h => (leastSignificantBit_lt h).trans (by decide)).trans
    (leastSignificantBit_eq_ret_iff q.req.a.isLt)

end Commands

/-- Settles O16: the scan finds the one index with the property, and the count of leading zeros says that there is one. -/
theorem msbGivesTheHighestSetBit : Obligations.MsbGivesTheHighestSetBit := by
  refine ⟨rfl, fun s q hq => ⟨exec_msb_of_zero hq, fun i hle hlt => exec_msb_of_highestBit hq ⟨hle, hlt⟩, fun ha => ?_⟩⟩
  have hbit := highestBit_clz ha
  exact ⟨_, Nat.le_of_lt_succ (hbit.lt_of_lt_two_pow q.req.a.isLt), hbit⟩

/-- Settles O17: the scan finds the one index with the property, and the count of trailing zeros says that there is one. -/
theorem lsbGivesTheLowestSetBit : Obligations.LsbGivesTheLowestSetBit := by
  refine ⟨rfl, fun s q hq => ⟨exec_lsb_of_zero hq, fun j hmod hne => exec_lsb_of_lowestBit hq ⟨hmod, hne⟩, fun ha => ?_⟩⟩
  have hbit := lowestBit_ctz ha
  exact ⟨_, Nat.le_of_lt_succ (hbit.lt_of_lt_two_pow q.req.a.isLt), hbit⟩

/-- A word with one bit set is that power of two. -/
theorem toNat_ofNat_two_pow {i : Nat} (hi : i ≤ 255) : (BitVec.ofNat 256 (2 ^ i)).toNat = 2 ^ i := by
  rw [BitVec.toNat_ofNat, Nat.mod_eq_of_lt (Nat.pow_lt_pow_right Nat.one_lt_two (Nat.lt_succ_of_le hi))]

/-- Settles O18: a success is the highest or the lowest set bit, and the highest set bit of `2^i` is `i`. -/
theorem bitScanDefiningProperties : Obligations.BitScanDefiningProperties := by
  intro s q hq
  refine ⟨fun r => (exec_msb_eq_ok_iff hq).1, fun r => (exec_lsb_eq_ok_iff hq).1,
    fun ha => ⟨exec_msb_of_zero hq ha, exec_lsb_of_zero hq ha⟩, fun i hi ha => exec_msb_of_highestBit hq ?_⟩
  rw [ha, toNat_ofNat_two_pow hi]
  exact highestBit_two_pow i

/-- Settles O19: both counts have the property that the commands scan for. -/
theorem bitScanCountsZeros : Obligations.BitScanCountsZeros := fun _ _ hq ha =>
  ⟨(exec_msb_eq_ok_iff hq).2 (highestBit_clz ha), (exec_lsb_eq_ok_iff hq).2 (lowestBit_ctz ha)⟩

/-- Settles O20: both commands succeed with the counts of O19, and the two bits compare as their properties say. -/
theorem lsbAtMostMsb : Obligations.LsbAtMostMsb := by
  intro s q hq ha
  obtain ⟨hmsb, hlsb⟩ := bitScanCountsZeros s q hq ha
  have hi := highestBit_clz ha
  have hj := lowestBit_ctz ha
  refine ⟨_, _, hmsb, hlsb, hj.le_highestBit hi, ?_⟩
  rw [← BitVec.toNat_inj]
  exact highestBit_eq_lowestBit_iff hi hj

end Sys2Proof.Machine

/-! PROOF. Component (2), the divider: what `UDIVRU` answers to each divisor, and that `CDIVRU` agrees with it where the divisor is not zero. -/

namespace Sys2Proof.Machine

/-- A quotient rounded up is at most the value divided, since a divisor is at least 1. -/
theorem ceilDiv_le_self {x y : Nat} (hy : 0 < y) : ceilDiv x y ≤ x :=
  (ceilDiv_le_iff x y x hy).2 (Nat.le_mul_of_pos_right x hy)

theorem unsafeDivRoundUp_pos_eq_div {x y : Nat} (hy : y ≠ 0) : unsafeDivRoundUp x y = .ret ((x + y - 1) / y) := by
  rw [unsafeDivRoundUp_pos hy, ceilDiv_eq_div x y (Nat.pos_of_ne_zero hy)]

section Commands
variable {s : State} {q : InFlight} (hq : s.serving = some q)
include hq

theorem exec_udivru_of_some : exec .udivru s = .next (s.complete q.who (unsafeDivRoundUp q.req.a.toNat q.req.b.toNat)) :=
  exec_of_some hq

theorem exec_udivru_of_ne_zero (hb : q.req.b ≠ 0) : exec .udivru s =
    Spec.replied s q .ok (BitVec.ofNat 256 ((q.req.a.toNat + q.req.b.toNat - 1) / q.req.b.toNat)) := by
  rw [exec_udivru_of_some hq, unsafeDivRoundUp_pos_eq_div (BitVec.toNat_ne.1 hb), complete_ret]

/-- Rules R91, R163: the fault draws one free value, so the counter advances. -/
theorem exec_udivru_of_zero (hb : q.req.b = 0) :
    exec .udivru s = .next (s.complete q.who (.raise (.fault .unsafeDivByZero))) := by
  have hzero : q.req.b.toNat = 0 := congrArg BitVec.toNat hb
  rw [exec_udivru_of_some hq, hzero, unsafeDivRoundUp_zero]

/-- `CDIVRU x, y` is `MULDIVRU x, 1, y` (rule R73). -/
theorem exec_cdivru_of_ne_zero (hb : q.req.b = 1) (hc : q.req.c ≠ 0) : exec .muldivru s =
    Spec.replied s q .ok (BitVec.ofNat 256 ((q.req.a.toNat + q.req.c.toNat - 1) / q.req.c.toNat)) := by
  obtain ⟨-, hcommands⟩ := pseudoInstructionsCompute
  obtain ⟨-, -, -, hup, -⟩ := hcommands s q hq
  exact hup hb hc

theorem exec_cdivru_of_zero (hb : q.req.b = 1) (hc : q.req.c = 0) :
    exec .muldivru s = Spec.replied s q (.error .divisionByZero) 0 := by
  obtain ⟨-, hcommands⟩ := pseudoInstructionsCompute
  obtain ⟨-, -, -, -, hzero⟩ := hcommands s q hq
  obtain ⟨-, hup⟩ := hzero hb hc
  exact hup

end Commands

/-- Settles O21: the two cases of the divisor. -/
theorem udivruRoundsUp : Obligations.UdivruRoundsUp :=
  ⟨rfl, fun _ _ hq => ⟨exec_udivru_of_ne_zero hq, exec_udivru_of_zero hq⟩⟩

/-- The quotient of two words rounded up is a word, at most the value divided. -/
theorem toNat_ofNat_quotient_up {x y : Word} (hy : y ≠ 0) :
    (BitVec.ofNat 256 ((x.toNat + y.toNat - 1) / y.toNat)).toNat = (x.toNat + y.toNat - 1) / y.toNat ∧
      (x.toNat + y.toNat - 1) / y.toNat ≤ x.toNat := by
  have hpos : 0 < y.toNat := Nat.pos_of_ne_zero (BitVec.toNat_ne.1 hy)
  have hle := ceilDiv_le_self (x := x.toNat) hpos
  rw [ceilDiv_eq_div _ _ hpos] at hle
  exact ⟨by rw [BitVec.toNat_ofNat, Nat.mod_eq_of_lt (hle.trans_lt x.isLt)], hle⟩

/-- Settles O22: both commands give the quotient rounded up, which fits because it is at most `x`; by zero each raises its own status. -/
theorem udivruAgreesWithCdivru : Obligations.UdivruAgreesWithCdivru := by
  intro s t q p hs ht ha hone hc
  refine ⟨fun hb => ?_, fun hb => ⟨⟨_, _, exec_udivru_of_zero hs hb, rfl⟩, exec_cdivru_of_zero ht hone (hc.trans hb)⟩⟩
  have hcdiv := exec_cdivru_of_ne_zero ht hone (hc ▸ hb)
  rw [ha, hc] at hcdiv
  obtain ⟨hval, hle⟩ := toNat_ofNat_quotient_up (x := q.req.a) hb
  exact ⟨_, exec_udivru_of_ne_zero hs hb, hcdiv, hval, hval.trans_le hle⟩

end Sys2Proof.Machine

/-! PROOF. The host's obligations: which fault answers each broken one, that no other request is answered a fault,
and what a fault does to the host's run. -/

namespace Sys2Proof.Machine

/-! ### The obligations as the unit sees them (rules R183, R184) -/

theorem legalWord_iff (q : Request) : q.legalWord = true ↔ ∃ i, decode q.cmd = .legal i := by
  rw [Request.legalWord, List.contains_iff_mem, exists_decode_legal_iff_mem]

/-- Of a legal word the operands are in range exactly when the operand check finds nothing to raise. -/
theorem operandsInRange_eq_false_iff {q : Request} {i : Instr} (h : decode q.cmd = .legal i) :
    q.operandsInRange = false ↔ checkOperands i q = some .illegalOperand := by
  have hcmd : q.cmd = encode i := (decode_eq_legal_iff _ _).1 h
  rw [checkOperands_eq_some_iff]
  cases i with
  | msb | lsb | udivru | muldiv | muldivru => simp [Request.operandsInRange, hcmd, encode, Instr.op, Instr.dir]
  | adddelta =>
    simp [Request.operandsInRange, hcmd, encode, Instr.op, Instr.dir, imp_iff_not_or]
  | sqrt0Rem | sqrt0Add | sqrt1Rem | sqrt1Add => simp [Request.operandsInRange, hcmd, encode, Instr.op, Instr.dir]

theorem divisorEstablished_eq_false_iff (q : Request) :
    q.divisorEstablished = false ↔ q.cmd = encode .udivru ∧ q.b = 0 := by
  simp [Request.divisorEstablished, encode, Instr.op, Instr.dir]

theorem wf_iff (q : Request) :
    q.wf = true ↔ q.legalWord = true ∧ q.operandsInRange = true ∧ q.divisorEstablished = true := by
  simp only [Request.wf, Bool.and_eq_true, and_assoc]

/-! ### The fault that answers a broken obligation (rules R91, R162, R165) -/

theorem answerOf_of_not_legalWord {q : Request} (h : q.legalWord = false) : answerOf q = .raise (.fault .illegalCommand) := by
  unfold answerOf
  cases hdec : decode q.cmd with
  | legal i => exact absurd ((legalWord_iff q).2 ⟨i, hdec⟩) (Bool.eq_false_iff.1 h)
  | illegal why => rfl

theorem answerOf_of_operands_out_of_range {q : Request} (hlegal : q.legalWord = true) (h : q.operandsInRange = false) :
    answerOf q = .raise (.fault .illegalOperand) := by
  obtain ⟨i, hdec⟩ := (legalWord_iff q).1 hlegal
  rw [answerOf_of_legal hdec, answerTo_eq_illegalOperand_iff]
  exact (operandsInRange_eq_false_iff hdec).1 h

theorem answerOf_of_divisor_not_established {q : Request} (h : q.divisorEstablished = false) :
    answerOf q = .raise (.fault .unsafeDivByZero) := by
  obtain ⟨hcmd, hb⟩ := (divisorEstablished_eq_false_iff q).1 h
  have hzero : q.b.toNat = 0 := congrArg BitVec.toNat hb
  rw [answerOf_of_legal ((decode_eq_legal_iff _ _).2 hcmd), answerTo_of_check rfl, opOf, hzero, unsafeDivRoundUp_zero]

/-- A request that meets every obligation is answered no fault. -/
theorem answerOf_ne_fault_of_wf {q : Request} (h : q.wf = true) (f : Fault) : answerOf q ≠ .raise (.fault f) := by
  obtain ⟨hlegal, hrange, hdivisor⟩ := (wf_iff q).1 h
  obtain ⟨i, hdec⟩ := (legalWord_iff q).1 hlegal
  rw [answerOf_of_legal hdec]
  obtain ⟨-, he⟩ | ⟨hcheck, -⟩ := answerTo_cases i (opOf i) q
  · rw [he]
    intro hfault
    obtain ⟨rfl, hb, -⟩ := opOf_eq_fault hfault
    exact Bool.eq_false_iff.1 ((divisorEstablished_eq_false_iff q).2 ⟨(decode_eq_legal_iff _ _).1 hdec, hb⟩) hdivisor
  · exact absurd hrange (Bool.eq_false_iff.1 ((operandsInRange_eq_false_iff hdec).2 hcheck))

/-- The fault is the one that rule R162 names for this request, the obligations taken in the order of rule R165. -/
def FaultOfBrokenObligation (q : Request) (f : Fault) : Prop :=
  (q.legalWord = false → f = .illegalCommand) ∧ (q.legalWord = true → q.operandsInRange = false → f = .illegalOperand) ∧
    (q.legalWord = true → q.operandsInRange = true → f = .unsafeDivByZero)

/-- A request that breaks an obligation is answered the fault of the first one it breaks. -/
theorem answerOf_eq_fault_of_not_wf {q : Request} (h : q.wf = false) :
    ∃ f, answerOf q = .raise (.fault f) ∧ FaultOfBrokenObligation q f := by
  unfold FaultOfBrokenObligation
  cases hlegal : q.legalWord with
  | false => exact ⟨_, answerOf_of_not_legalWord hlegal, by simp⟩
  | true =>
    cases hrange : q.operandsInRange with
    | false => exact ⟨_, answerOf_of_operands_out_of_range hlegal hrange, by simp⟩
    | true =>
      have hdivisor : q.divisorEstablished = false := by simpa [Request.wf, hlegal, hrange] using h
      exact ⟨_, answerOf_of_divisor_not_established hdivisor, by simp⟩

/-! ### The host's run (rules R74, R162) -/

/-- A transaction on a request that the unit answers a fault fails. -/
theorem transact_of_fault (u : State) {p : InFlight} {f : Fault} (h : answerOf p.req = .raise (.fault f)) :
    transact u p = .failed f (afterTransaction u p.req) := by
  rw [transact_eq_deliver]
  exact deliver_of_fault _ ((response_status_eq_fault_iff _ _ f).2 h)

/-- A transaction on a request that the unit answers no fault gives a response, which is no fault either. -/
theorem transact_of_ne_fault (u : State) {p : InFlight} (h : ∀ f, answerOf p.req ≠ .raise (.fault f)) :
    ∃ (rsp : Response) (t : State), transact u p = .response rsp t ∧ rsp.status.isFault = false := by
  rw [transact_eq_deliver]
  obtain ⟨hrsp, he⟩ | ⟨f, hf, -⟩ := deliver_cases ((answerOf p.req).response (Config.freeResult u.draws)) (afterTransaction u p.req)
  · exact ⟨_, _, he, hrsp⟩
  · exact absurd ((response_status_eq_fault_iff _ _ f).1 hf) (h f)

/-- A line that assembles and is answered a fault: the run fails and nothing is bound, whether or not the line would go on. -/
theorem run_issue_of_failed {name : ResultName} {cmd : HostCommand} {goesOn : Bool} {h : HostState} {q : Request} {f : Fault}
    {u : State} (hrun : h.run = .going) (hcmd : cmd.request h.bindings = .request q)
    (hfail : transact h.unit { who := 0, req := q } = .failed f u) :
    (HostProgram.issue name cmd goesOn).run h = { h with unit := u, run := .failed f } := by
  simp only [HostProgram.run, if_pos hrun, issueCommand, hcmd, hfail, HostState.receive]

theorem run_seq (p q : HostProgram) (h : HostState) : (HostProgram.seq p q).run h = q.run (p.run h) := rfl

/-- No program goes on in a run that has ended. -/
theorem run_of_ne_going (p : HostProgram) {h : HostState} (hrun : h.run ≠ .going) : p.run h = h := by
  induction p with
  | done => rfl
  | issue name cmd goesOn => rw [HostProgram.run, if_neg hrun]
  | ifStatus name st p q => rw [HostProgram.run, if_neg hrun]
  | seq p q ihp ihq => rw [run_seq, ihp, ihq]

/-- After a response that is no fault the run goes on or has stopped. -/
theorem after_of_isFault_false (goesOn : Bool) {st : Status} (h : st.isFault = false) :
    HostRun.after goesOn st = .going ∨ HostRun.after goesOn st = .stopped := by
  cases st with
  | ok => exact .inl rfl
  | error e =>
    cases goesOn with
    | true => exact .inl rfl
    | false => exact .inr rfl
  | fault f => cases h

/-- A run that goes on or has stopped is no failed run. -/
theorem outcome_of_going_or_stopped {h : HostState} (hrun : h.run = .going ∨ h.run = .stopped) : h.outcome = .next h := by
  obtain hrun | hrun := hrun <;> simp only [HostState.outcome, hrun]

/-- Settles O56: a raw request is its own request; a broken obligation is answered its fault, with which the run ends, and no other
request is answered a fault. -/
theorem faultFailsTheHostsRun : Obligations.FaultFailsTheHostsRun := by
  refine ⟨fun _ _ => rfl, fun name cmd goesOn h q hrun hcmd => ⟨fun hbroken => ?_, fun hwf => ?_⟩⟩
  · obtain ⟨f, hanswer, hword, hoperands, hdivisor⟩ := answerOf_eq_fault_of_not_wf hbroken
    have hfailed := run_issue_of_failed (name := name) (goesOn := goesOn) hrun hcmd (transact_of_fault h.unit hanswer)
    refine ⟨f, by rw [hfailed]; rfl, by rw [hfailed], hword, hoperands, hdivisor, fun rest => ?_⟩
    rw [run_seq, hfailed]
    exact run_of_ne_going rest nofun
  · obtain ⟨rsp, u, hrsp, hnofault⟩ := transact_of_ne_fault h.unit (p := { who := 0, req := q }) (answerOf_ne_fault_of_wf hwf)
    rw [run_issue_of_response hrun hcmd hrsp]
    exact outcome_of_going_or_stopped (after_of_isFault_false goesOn hnofault)

end Sys2Proof.Machine

/-! PROOF. Component (3), the multiply-divide: what `mul_div` and `mul_div_round_up` answer in each case, and so both commands. -/

namespace Sys2Proof.Machine

/-! ### The two routines (rules R100-R104, R112) -/

theorem mulDiv_lt {x y d v : Nat} (h : mulDiv x y d = .ret v) : v < 2 ^ 256 := by
  obtain ⟨-, -, hv, -⟩ := mulDivRoundUp_of_ret h
  exact hv

theorem mulDivRoundUp_fits {x y d : Nat} (hd : d ≠ 0) (h : ceilDiv (x * y) d < 2 ^ 256) :
    mulDivRoundUp x y d = .ret (ceilDiv (x * y) d) := by
  have hfloor := (div_le_ceilDiv (x * y) d).trans_lt h
  obtain ⟨-, -, -, ⟨-, he⟩ | ⟨hmax, -⟩⟩ := mulDivRoundUp_of_ret (mulDiv_fits hd hfloor)
  · exact he
  · exact absurd hmax h.ne

theorem mulDivRoundUp_isMax {x y d : Nat} (hd : d ≠ 0) (hfloor : x * y / d < 2 ^ 256) (h : 2 ^ 256 ≤ ceilDiv (x * y) d) :
    mulDivRoundUp x y d = .raise (.error .resultIsMax) := by
  obtain ⟨-, -, -, ⟨hlt, -⟩ | ⟨-, he⟩⟩ := mulDivRoundUp_of_ret (mulDiv_fits hd hfloor)
  · exact absurd h (Nat.not_le.2 hlt)
  · exact he

/-- A success of `mul_div_round_up` is the ceiling, and it is a success of `mul_div` too. -/
theorem mulDivRoundUp_eq_ret {x y d v : Nat} (h : mulDivRoundUp x y d = .ret v) : v = ceilDiv (x * y) d ∧ v < 2 ^ 256 := by
  obtain ⟨r, hr, -⟩ := andThen_eq_ret h
  obtain ⟨-, -, -, ⟨hlt, he⟩ | ⟨-, he⟩⟩ := mulDivRoundUp_of_ret hr
  · cases h.symm.trans he
    exact ⟨rfl, hlt⟩
  · cases h.symm.trans he

/-- The ceiling is the floor, or one more exactly where there is a remainder. -/
theorem ceilDiv_eq_or_succ (x y : Nat) :
    (ceilDiv x y = x / y ∨ ceilDiv x y = x / y + 1) ∧ (ceilDiv x y = x / y + 1 ↔ x % y ≠ 0) := by
  unfold ceilDiv
  split <;> simp [*]

theorem mulDiv_comm (x y d : Nat) : mulDiv x y d = mulDiv y x d := by
  simp only [mulDiv, Nat.mul_comm x y]

theorem mulDivRoundUp_comm (x y d : Nat) : mulDivRoundUp x y d = mulDivRoundUp y x d := by
  simp only [mulDivRoundUp, mulDiv_comm x y, Nat.mul_comm x y]

/-- A factor equal to the denominator drops out. -/
theorem mulDiv_mul_self {x d : Nat} (hx : x < 2 ^ 256) (hd : d ≠ 0) : mulDiv x d d = .ret x := by
  have hdiv : x * d / d = x := Nat.mul_div_cancel x (Nat.pos_of_ne_zero hd)
  rw [mulDiv_fits hd (hdiv.symm ▸ hx), hdiv]

theorem mulDivRoundUp_mul_self {x d : Nat} (hx : x < 2 ^ 256) (hd : d ≠ 0) : mulDivRoundUp x d d = .ret x := by
  rw [mulDivRoundUp, mulDiv_mul_self hx hd, andThen_ret, if_neg (not_not.2 (Nat.mul_mod_left x d))]

/-! ### The commands `MULDIV` and `MULDIVRU` -/

/-- Settles O23: the two cases of the denominator, each with a quotient or product that fits and one that does not. -/
theorem muldivGivesTheFloor : Obligations.MuldivGivesTheFloor := by
  refine ⟨rfl, fun s q hq => ?_⟩
  rw [exec_muldiv_of_some hq]
  have hzero (hc : q.req.c = 0) : q.req.c.toNat = 0 := congrArg BitVec.toNat hc
  refine ⟨fun hc hfits => ?_, fun hc hover => ?_, fun hc hfits => ?_, fun hc hover => ?_⟩
  · rw [mulDiv_fits (BitVec.toNat_ne.1 hc) hfits, complete_ret]
  · rw [mulDiv_overflows (BitVec.toNat_ne.1 hc) hover, complete_error]
  · rw [hzero hc, mulDiv_zero_fits hfits, complete_error]
  · rw [hzero hc, mulDiv_zero_overflows hover, complete_error]

/-- Settles O24: the errors of the floor pass through, and a floor that fits is rounded up or raises `ResultIsMax`. -/
theorem muldivruGivesTheCeiling : Obligations.MuldivruGivesTheCeiling := by
  refine ⟨rfl, fun s q hq => ?_⟩
  rw [exec_muldivru_of_some hq]
  have hzero (hc : q.req.c = 0) : q.req.c.toNat = 0 := congrArg BitVec.toNat hc
  have hceil (hc : q.req.c ≠ 0) := ceilDiv_eq_div (q.req.a.toNat * q.req.b.toNat) q.req.c.toNat
    (Nat.pos_of_ne_zero (BitVec.toNat_ne.1 hc))
  refine ⟨fun hc hfits => ?_, fun hc hover => ?_, fun hc hfloor hmax => ?_, fun hc hfits => ?_, fun hc hover => ?_⟩
  · rw [← hceil hc] at hfits ⊢
    rw [mulDivRoundUp_fits (BitVec.toNat_ne.1 hc) hfits, complete_ret]
  · rw [mulDivRoundUp_of_raise (mulDiv_overflows (BitVec.toNat_ne.1 hc) hover), complete_error]
  · rw [← hceil hc] at hmax
    rw [mulDivRoundUp_isMax (BitVec.toNat_ne.1 hc) hfloor hmax, complete_error]
  · rw [hzero hc, mulDivRoundUp_of_raise (mulDiv_zero_fits hfits), complete_error]
  · rw [hzero hc, mulDivRoundUp_of_raise (mulDiv_zero_overflows hover), complete_error]

theorem exec_muldiv_eq_ok_iff {s : State} {q : InFlight} (hq : s.serving = some q) {r : Word} :
    exec .muldiv s = Spec.replied s q .ok r ↔ mulDiv q.req.a.toNat q.req.b.toNat q.req.c.toNat = .ret r.toNat :=
  exec_eq_replied_ok_iff (i := .muldiv) hq rfl fun _ => mulDiv_lt

theorem exec_muldivru_eq_ok_iff {s : State} {q : InFlight} (hq : s.serving = some q) {r : Word} :
    exec .muldivru s = Spec.replied s q .ok r ↔ mulDivRoundUp q.req.a.toNat q.req.b.toNat q.req.c.toNat = .ret r.toNat :=
  exec_eq_replied_ok_iff (i := .muldivru) hq rfl fun _ h => (mulDivRoundUp_eq_ret h).2

/-- With an answer that draws no free value, which response a request gets depends on neither the state nor the requester. -/
theorem next_complete_eq_replied_iff {x : Answer} (hx : x ≠ .raise (.fault .unsafeDivByZero)) (s : State) (q : InFlight) (st : Status)
    (r : Word) : Host.Outcome.next (s.complete q.who x) = Spec.replied s q st r ↔ x.response 0 = { status := st, r := r } := by
  constructor
  · intro h
    rw [response_eq_of_ne hx 0 (Config.freeResult s.draws)]
    exact response_of_next_complete_eq_replied h
  · intro h
    rw [complete_of_ne s q.who hx 0, h]

/-- Settles O25: both results are roundings of one quotient, and both routines are symmetric and raise no fault. -/
theorem muldivAndMuldivruLaws : Obligations.MuldivAndMuldivruLaws := by
  intro s t q p hs ht
  refine ⟨fun u v ha hb hc hu hv => ?_, fun ha hb hc st r => ?_⟩
  · rw [exec_muldiv_eq_ok_iff hs] at hu
    rw [exec_muldivru_eq_ok_iff ht, ha, hb, hc] at hv
    obtain ⟨hfloor, -⟩ := mulDivRoundUp_of_ret hu
    obtain ⟨hceil, -⟩ := mulDivRoundUp_eq_ret hv
    rw [hfloor, hceil]
    exact ceilDiv_eq_or_succ _ _
  · rw [exec_muldiv_of_some hs, exec_muldiv_of_some ht, exec_muldivru_of_some hs, exec_muldivru_of_some ht, ha, hb, hc,
      mulDiv_comm q.req.b.toNat, mulDivRoundUp_comm q.req.b.toNat]
    simp only [next_complete_eq_replied_iff (mulDiv_ne_fault _ _ _ _), next_complete_eq_replied_iff (mulDivRoundUp_ne_fault _ _ _ _),
      iff_self, and_self]

/-- Settles O26: the second factor and the denominator cancel, and the first is left. -/
theorem allMaximumCaseGivesMax : Obligations.AllMaximumCaseGivesMax := by
  intro s q hq ha hb hc
  have hmax : (BitVec.allOnes 256).toNat ≠ 0 := by decide
  rw [exec_muldiv_eq_ok_iff hq, exec_muldivru_eq_ok_iff hq, ha, hb, hc]
  exact ⟨mulDiv_mul_self (BitVec.isLt _) hmax, mulDivRoundUp_mul_self (BitVec.isLt _) hmax⟩

end Sys2Proof.Machine

/-! PROOF. The reference algorithm: what each step computes on the exact product, and that the whole agrees with `mul_div`. -/

namespace Sys2Proof.Machine

/-! ### Step 1, the 512-bit product (rule R106) -/

/-- The product exceeds the sum of its halves by a multiple of `2^256 - 1`, so the checksum is that of the sum. -/
theorem toNat_mulMod_max (x y : Word) :
    (mulMod x y (2 ^ 256 - 1)).toNat = (x.toNat * y.toNat / 2 ^ 256 + x.toNat * y.toNat % 2 ^ 256) % (2 ^ 256 - 1) := by
  have hlt : x.toNat * y.toNat % (2 ^ 256 - 1) < 2 ^ 256 := (Nat.mod_lt _ (by decide)).trans (by decide)
  rw [mulMod, BitVec.toNat_ofNat, Nat.mod_eq_of_lt hlt]
  generalize x.toNat * y.toNat = p
  have hp : p = (2 ^ 256 - 1) * (p / 2 ^ 256) + (p / 2 ^ 256 + p % 2 ^ 256) := by omega
  conv_lhs => rw [hp, Nat.mul_add_mod]

theorem toNat_refProd0 (x y : Word) : (refProd0 x y).toNat = x.toNat * y.toNat % 2 ^ 256 := BitVec.toNat_mul x y

/-- The high half of a product of two words is below `2^256 - 1`, so the checksum loses at most one multiple of it. -/
theorem product_high_lt (x y : Word) : x.toNat * y.toNat / 2 ^ 256 < 2 ^ 256 - 1 := by
  rw [Nat.div_lt_iff_lt_mul (by decide)]
  calc x.toNat * y.toNat
      ≤ (2 ^ 256 - 1) * y.toNat := Nat.mul_le_mul_right _ (Nat.le_sub_one_of_lt x.isLt)
    _ < (2 ^ 256 - 1) * 2 ^ 256 := Nat.mul_lt_mul_of_pos_left y.isLt (by decide)

/-- The borrow as a number. -/
theorem toNat_borrow (c : Prop) [Decidable c] : (if c then (1 : Word) else 0).toNat = if c then 1 else 0 := by
  split <;> rfl

/-- From a checksum of two halves and the low half the high half comes back: the checksum is below the low half exactly when it wrapped. -/
theorem toNat_checksum_sub {m l : Word} {h : Nat} (hh : h < 2 ^ 256 - 1) (hm : m.toNat = (h + l.toNat) % (2 ^ 256 - 1)) :
    (m - l - (if m < l then 1 else 0)).toNat = h := by
  have hl := l.isLt
  simp only [BitVec.toNat_sub, toNat_borrow, BitVec.lt_def]
  by_cases hwrap : h + l.toNat < 2 ^ 256 - 1
  · rw [Nat.mod_eq_of_lt hwrap] at hm
    rw [if_neg (by omega)]
    omega
  · have hwrapped : m.toNat = h + l.toNat - (2 ^ 256 - 1) := by omega
    rw [if_pos (by omega)]
    omega

theorem toNat_refProd1 (x y : Word) : (refProd1 x y).toNat = x.toNat * y.toNat / 2 ^ 256 :=
  toNat_checksum_sub (product_high_lt x y) (by rw [toNat_refProd0]; exact toNat_mulMod_max x y)

/-- Settles O27: the two limbs are the quotient and the remainder of the product by `2^256`. -/
theorem referenceHalvesAreTheProduct : Obligations.ReferenceHalvesAreTheProduct := by
  intro x y
  rw [toNat_refProd1, toNat_refProd0]
  exact Nat.div_add_mod' _ _

/-! ### Step 4a, the remainder (rule R108) -/

theorem toNat_mulMod_word (x y : Word) {d : Word} (hd : d ≠ 0) : (mulMod x y d.toNat).toNat = x.toNat * y.toNat % d.toNat := by
  have hlt := Nat.mod_lt (x.toNat * y.toNat) (Nat.pos_of_ne_zero (BitVec.toNat_ne.1 hd))
  rw [mulMod, BitVec.toNat_ofNat, Nat.mod_eq_of_lt (hlt.trans d.isLt)]

/-- Subtraction over two limbs with a borrow, where the whole does not go below zero. -/
theorem toNat_sub_with_borrow {h l r : Word} (hr : r.toNat ≤ h.toNat * 2 ^ 256 + l.toNat) :
    (h - (if l < r then 1 else 0)).toNat * 2 ^ 256 + (l - r).toNat = h.toNat * 2 ^ 256 + l.toNat - r.toNat := by
  have hl := l.isLt
  have hh := h.isLt
  simp only [BitVec.toNat_sub, toNat_borrow, BitVec.lt_def]
  split <;> omega

theorem reduced_limbs_eq (x y : Word) {d : Word} (hd : d ≠ 0) : (refHigh x y d).toNat * 2 ^ 256 + (refLow x y d).toNat =
    x.toNat * y.toNat - x.toNat * y.toNat % d.toNat := by
  have hrem : (mulMod x y d.toNat).toNat ≤ (refProd1 x y).toNat * 2 ^ 256 + (refProd0 x y).toNat := by
    rw [toNat_mulMod_word x y hd, referenceHalvesAreTheProduct]
    exact Nat.mod_le _ _
  rw [refHigh, refLow, toNat_sub_with_borrow hrem, referenceHalvesAreTheProduct, toNat_mulMod_word x y hd]

/-- Settles O28: the two limbs are the exact product, from which the remainder is subtracted with a borrow. -/
theorem referenceSubtractsTheRemainder : Obligations.ReferenceSubtractsTheRemainder := by
  intro x y d hd
  refine ⟨reduced_limbs_eq x y hd, ?_⟩
  rw [reduced_limbs_eq x y hd]
  exact Nat.mod_eq_zero_of_dvd (Nat.dvd_sub_mod _)

/-! ### Step 4b, the power of two (rule R109) -/

/-- Negation keeps the bits up to the lowest set one and inverts those above it, so a word and its negation share only that bit. -/
theorem refTwos_eq_twoPow {d : Word} (hd : d ≠ 0) : refTwos d = BitVec.twoPow 256 d.ctz.toNat := by
  have hlow := BitVec.getLsbD_true_ctz_of_ne_zero hd
  refine BitVec.eq_of_getLsbD_eq fun i hi => ?_
  rw [refTwos, zero_sub, BitVec.getLsbD_and, BitVec.getLsbD_neg, BitVec.getLsbD_twoPow]
  obtain hlt | rfl | hgt := Nat.lt_trichotomy i d.ctz.toNat
  · simp [BitVec.getLsbD_false_of_lt_ctz hlt, hlt.ne']
  · have hbelow : ¬∃ j < d.ctz.toNat, d.getLsbD j = true := by
      rintro ⟨j, hj, hset⟩
      rw [BitVec.getLsbD_false_of_lt_ctz hj] at hset
      cases hset
    simp [hlow, hbelow, hi]
  · have hbelow : ∃ j < i, d.getLsbD j = true := ⟨_, hgt, hlow⟩
    simp [hbelow, hi, hgt.ne]

theorem ctz_lt_width {d : Word} (hd : d ≠ 0) : d.ctz.toNat < 256 := BitVec.ctz_lt_iff_ne_zero.2 hd

theorem toNat_refTwos {d : Word} (hd : d ≠ 0) : (refTwos d).toNat = 2 ^ d.ctz.toNat := by
  rw [refTwos_eq_twoPow hd, BitVec.toNat_twoPow, Nat.mod_eq_of_lt (Nat.pow_lt_pow_right Nat.one_lt_two (ctz_lt_width hd))]

theorem refOdd_mul_refTwos {d : Word} (hd : d ≠ 0) : (refOdd d).toNat * (refTwos d).toNat = d.toNat := by
  obtain ⟨hmod, -⟩ := lowestBit_ctz hd
  rw [refOdd, BitVec.toNat_udiv, toNat_refTwos hd]
  exact Nat.div_mul_cancel (Nat.dvd_of_mod_eq_zero hmod)

/-- An even quotient would make the next power of two divide the denominator too. -/
theorem refOdd_odd {d : Word} (hd : d ≠ 0) : (refOdd d).toNat % 2 = 1 := by
  obtain ⟨hmod, hnext⟩ := lowestBit_ctz hd
  rw [pow_succ, Nat.mod_mul, hmod, Nat.zero_add] at hnext
  rw [refOdd, BitVec.toNat_udiv, toNat_refTwos hd]
  exact Nat.mod_two_ne_zero.1 (Nat.ne_zero_of_mul_ne_zero_right hnext)

/-- The power of two and the shift that complements it. -/
theorem two_pow_ctz_mul {d : Word} (hd : d ≠ 0) : 2 ^ (256 - d.ctz.toNat) * 2 ^ d.ctz.toNat = 2 ^ 256 := by
  rw [← pow_add, Nat.sub_add_cancel (ctz_lt_width hd).le]

/-- `flip` is the complementary power of two, or 0 where that is `2^256`. -/
theorem toNat_refFlip {d : Word} (hd : d ≠ 0) : (refFlip d).toNat = 2 ^ (256 - d.ctz.toNat) % 2 ^ 256 := by
  have hpos : 0 < 2 ^ d.ctz.toNat := Nat.two_pow_pos _
  have hneg : (0 - refTwos d).toNat = 2 ^ 256 - 2 ^ d.ctz.toNat := by
    rw [BitVec.toNat_sub, toNat_refTwos hd]
    exact Nat.mod_eq_of_lt (Nat.sub_lt (by decide) hpos)
  have hdiv : (2 ^ 256 - 2 ^ d.ctz.toNat) / 2 ^ d.ctz.toNat + 1 = 2 ^ (256 - d.ctz.toNat) := by
    rw [← two_pow_ctz_mul hd, ← Nat.sub_one_mul, Nat.mul_div_cancel _ hpos]
    exact Nat.sub_add_cancel Nat.one_le_two_pow
  rw [refFlip, BitVec.toNat_add, BitVec.toNat_udiv, hneg, toNat_refTwos hd]
  exact congrArg (· % 2 ^ 256) hdiv

/-- A right shift over two limbs: the shifted low limb has `j` bits, and the low `k` bits of the high limb are put in above them. -/
theorem or_carry_eq_shift {h l j k : Nat} (hl : l < 2 ^ j * 2 ^ k) :
    l / 2 ^ k ||| 2 ^ j * h % (2 ^ j * 2 ^ k) = (h * (2 ^ j * 2 ^ k) + l) / 2 ^ k % (2 ^ j * 2 ^ k) := by
  have hlt : l / 2 ^ k < 2 ^ j := (Nat.div_lt_iff_lt_mul (Nat.two_pow_pos k)).2 hl
  have hshift : (h * (2 ^ j * 2 ^ k) + l) / 2 ^ k = 2 ^ j * h + l / 2 ^ k := by
    rw [← Nat.mul_assoc, Nat.mul_comm h, Nat.mul_comm _ (2 ^ k), Nat.mul_add_div (Nat.two_pow_pos k)]
  calc l / 2 ^ k ||| 2 ^ j * h % (2 ^ j * 2 ^ k)
      = 2 ^ j * (h % 2 ^ k) + l / 2 ^ k := by
        rw [Nat.mul_mod_mul_left, Nat.or_comm, Nat.two_pow_add_eq_or_of_lt hlt]
    _ = (2 ^ j * h + l / 2 ^ k) % (2 ^ j * 2 ^ k) := by
        rw [Nat.mod_mul, Nat.mul_add_mod, Nat.mod_eq_of_lt hlt, Nat.mul_add_div (Nat.two_pow_pos j), Nat.div_eq_of_lt hlt,
          Nat.add_zero, Nat.add_comm]
    _ = (h * (2 ^ j * 2 ^ k) + l) / 2 ^ k % (2 ^ j * 2 ^ k) := by rw [hshift]

/-- The low limb after step 4b is the two limbs shifted right, modulo `2^256`. -/
theorem toNat_refNumerator (x y : Word) {d : Word} (hd : d ≠ 0) : (refNumerator x y d).toNat =
    ((refHigh x y d).toNat * 2 ^ 256 + (refLow x y d).toNat) / (refTwos d).toNat % 2 ^ 256 := by
  have hlow : (refLow x y d).toNat < 2 ^ (256 - d.ctz.toNat) * 2 ^ d.ctz.toNat := by
    rw [two_pow_ctz_mul hd]
    exact (refLow x y d).isLt
  have hcarry := or_carry_eq_shift (h := (refHigh x y d).toNat) hlow
  rw [two_pow_ctz_mul hd] at hcarry
  rw [refNumerator, BitVec.toNat_or, BitVec.toNat_udiv, BitVec.toNat_mul, toNat_refFlip hd, toNat_refTwos hd, Nat.mul_mod_mod,
    Nat.mul_comm (refHigh x y d).toNat, hcarry]

/-- Settles O29: the shift of the two limbs, which hold the product less its remainder. -/
theorem referenceTakesOutThePowerOfTwo : Obligations.ReferenceTakesOutThePowerOfTwo := by
  intro x y d hd
  refine ⟨⟨d.ctz.toNat, Nat.le_of_lt_succ (ctz_lt_width hd), toNat_refTwos hd⟩, refOdd_mul_refTwos hd, refOdd_odd hd, ?_⟩
  rw [toNat_refNumerator x y hd, reduced_limbs_eq x y hd]

/-! ### Step 4c, the inverse (rule R110) -/

/-- One Newton-Raphson step. -/
def newtonStep (odd inv : Word) : Word := inv * (2 - odd * inv)

theorem refNewton_eq_iterate (odd : Word) (n : Nat) (inv : Word) : refNewton odd n inv = (newtonStep odd)^[n] inv := by
  induction n generalizing inv with
  | zero => rfl
  | succ n ih => rw [refNewton, ih, Function.iterate_succ_apply, newtonStep]

/-- `inv` is the inverse of `odd` in its low `n` bits: what is left of the product divides by `2^n`. -/
def CorrectBits (odd inv : Word) (n : Nat) : Prop := (2 : Word) ^ n ∣ 1 - odd * inv

/-- What is left of the product is squared by a step. -/
theorem correctBits_newtonStep {odd inv : Word} {n : Nat} (h : CorrectBits odd inv n) :
    CorrectBits odd (newtonStep odd inv) (2 * n) := by
  have hsq : 1 - odd * newtonStep odd inv = (1 - odd * inv) ^ 2 := by
    unfold newtonStep
    ring
  rw [CorrectBits, hsq, Nat.mul_comm, pow_mul]
  exact pow_dvd_pow_of_dvd h 2

theorem correctBits_iterate {odd inv : Word} {n : Nat} (h : CorrectBits odd inv n) (i : Nat) :
    CorrectBits odd ((newtonStep odd)^[i] inv) (n * 2 ^ i) := by
  induction i with
  | zero => simpa using h
  | succ i ih =>
    rw [Function.iterate_succ_apply', pow_succ, ← Nat.mul_assoc, Nat.mul_comm _ 2]
    exact correctBits_newtonStep ih

theorem natCast_toNat_word (w : Word) : ((w.toNat : Nat) : Word) = w := by
  rw [BitVec.natCast_eq_ofNat, BitVec.ofNat_toNat, BitVec.setWidth_eq]

/-- Divisibility by `2^n` in the ring of words is divisibility of the numbers, as `2^n` divides the modulus. -/
theorem two_pow_dvd_one_sub_iff {n : Nat} (hpos : 0 < n) (hn : n ≤ 256) (w : Word) :
    (2 : Word) ^ n ∣ 1 - w ↔ w.toNat % 2 ^ n = 1 := by
  constructor
  · rintro ⟨t, ht⟩
    have hone : ((w.toNat + 2 ^ n * t.toNat : Nat) : Word) = 1 := by
      rw [Nat.cast_add, Nat.cast_mul, Nat.cast_pow, Nat.cast_ofNat, natCast_toNat_word, natCast_toNat_word, ← ht, add_sub_cancel]
    have hmod : (w.toNat + 2 ^ n * t.toNat) % 2 ^ 256 = 1 := by
      rw [BitVec.natCast_eq_ofNat] at hone
      exact (BitVec.toNat_ofNat _ _).symm.trans (congrArg BitVec.toNat hone)
    calc w.toNat % 2 ^ n
        = (w.toNat + 2 ^ n * t.toNat) % 2 ^ 256 % 2 ^ n := by
          rw [Nat.mod_mod_of_dvd _ (Nat.pow_dvd_pow 2 hn), Nat.add_mul_mod_self_left]
      _ = 1 := by rw [hmod, Nat.mod_eq_of_lt (Nat.one_lt_two_pow hpos.ne')]
  · intro hmod
    have hw : w = 2 ^ n * ((w.toNat / 2 ^ n : Nat) : Word) + 1 := by
      have hnat := congrArg (Nat.cast (R := Word)) (Nat.div_add_mod w.toNat (2 ^ n))
      rw [hmod, natCast_toNat_word, Nat.cast_add, Nat.cast_mul, Nat.cast_pow, Nat.cast_ofNat, Nat.cast_one] at hnat
      exact hnat.symm
    refine ⟨-((w.toNat / 2 ^ n : Nat) : Word), ?_⟩
    nth_rewrite 1 [hw]
    ring

/-- The seed on four bits, for each of the eight odd values. -/
theorem seed_inverts_four_bits : ∀ e : BitVec 4, e.toNat % 2 = 1 → e * ((3 * e) ^^^ 2) = 1 := by decide

theorem correctBits_seed {odd : Word} (h : odd.toNat % 2 = 1) : CorrectBits odd ((3 * odd) ^^^ 2) 4 := by
  have hodd : (odd.setWidth 4).toNat % 2 = 1 := by
    rw [BitVec.toNat_setWidth, Nat.mod_mod_of_dvd _ (by decide), h]
  have hseed : (odd * ((3 * odd) ^^^ 2)).setWidth 4 = 1 := by
    rw [BitVec.setWidth_mul _ _ (by decide), BitVec.setWidth_xor, BitVec.setWidth_mul _ _ (by decide)]
    exact seed_inverts_four_bits _ hodd
  rw [CorrectBits, two_pow_dvd_one_sub_iff (by decide) (by decide), ← BitVec.toNat_setWidth, hseed]
  rfl

/-- Settles O30: the seed has four correct bits, each step doubles them, and 256 correct bits are the whole word. -/
theorem referenceInverseIsExact : Obligations.ReferenceInverseIsExact := by
  intro d hd
  have hsteps := refNewton_eq_iterate d Config.newtonIterations ((3 * d) ^^^ 2)
  have hbits (n : Nat) (hn : n ≤ 6) : (d * (newtonStep d)^[n] ((3 * d) ^^^ 2)).toNat % 2 ^ (4 * 2 ^ n) = 1 := by
    have hwidth : 4 * 2 ^ n ≤ 256 := Nat.mul_le_mul_left 4 (Nat.pow_le_pow_right Nat.two_pos hn)
    exact (two_pow_dvd_one_sub_iff (by positivity) hwidth _).1 (correctBits_iterate (correctBits_seed hd) n)
  refine ⟨hsteps, hbits, ?_⟩
  have hall := hbits 6 le_rfl
  rw [refInverse, hsteps]
  exact BitVec.eq_of_toNat_eq ((Nat.mod_eq_of_lt (BitVec.isLt _)).symm.trans hall)

/-! ### The whole algorithm (rules R105, R107, R111) -/

theorem refOdd_mul_refInverse {d : Word} (hd : d ≠ 0) : refOdd d * refInverse (refOdd d) = 1 := by
  obtain ⟨-, -, hinv⟩ := referenceInverseIsExact _ (refOdd_odd hd)
  exact hinv

/-- The low limb after step 4b is the quotient times the odd part of the denominator, modulo `2^256`. -/
theorem refNumerator_eq_quotient_mul (x y : Word) {d : Word} (hd : d ≠ 0) :
    refNumerator x y d = BitVec.ofNat 256 (x.toNat * y.toNat / d.toNat) * refOdd d := by
  obtain ⟨-, hmul, -, hnum⟩ := referenceTakesOutThePowerOfTwo x y d hd
  have htwos : 0 < (refTwos d).toNat := by
    rw [toNat_refTwos hd]
    exact Nat.two_pow_pos _
  have hquot : (x.toNat * y.toNat - x.toNat * y.toNat % d.toNat) / (refTwos d).toNat =
      x.toNat * y.toNat / d.toNat * (refOdd d).toNat := by
    rw [← Nat.div_mul_self_eq_mod_sub_self, ← hmul, ← Nat.mul_assoc, Nat.mul_div_cancel _ htwos]
  refine BitVec.eq_of_toNat_eq ?_
  rw [hnum, hquot, BitVec.toNat_mul, BitVec.toNat_ofNat, Nat.mod_mul_mod]

/-- The inverse takes the odd part out of the quotient's multiple. -/
theorem refNumerator_mul_refInverse (x y : Word) {d : Word} (hd : d ≠ 0) :
    refNumerator x y d * refInverse (refOdd d) = BitVec.ofNat 256 (x.toNat * y.toNat / d.toNat) := by
  rw [refNumerator_eq_quotient_mul x y hd, BitVec.mul_assoc, refOdd_mul_refInverse hd]
  exact BitVec.mul_one _

theorem mulDivReference_eq_mulDiv (x y d : Word) : mulDivReference x y d = mulDiv x.toNat y.toNat d.toNat := by
  have hhigh : refProd1 x y = 0 ↔ x.toNat * y.toNat / 2 ^ 256 = 0 := by
    rw [← BitVec.toNat_inj, toNat_refProd1]
    rfl
  have hle : d ≤ refProd1 x y ↔ d.toNat ≤ x.toNat * y.toNat / 2 ^ 256 := by rw [BitVec.le_def, toNat_refProd1]
  have hd : d = 0 ↔ d.toNat = 0 := BitVec.toNat_inj.symm
  unfold mulDivReference mulDiv
  simp only [hhigh, hle, hd]
  by_cases h0 : x.toNat * y.toNat / 2 ^ 256 = 0
  · rw [if_pos h0, if_pos h0, BitVec.toNat_udiv, toNat_refProd0]
  rw [if_neg h0, if_neg h0]
  by_cases hover : d.toNat ≤ x.toNat * y.toNat / 2 ^ 256
  · rw [if_pos hover, if_pos hover]
  have hne : d.toNat ≠ 0 := by omega
  have hfits := (high_lt_iff_quotient_fits _ _ hne).1 (Nat.not_le.1 hover)
  rw [if_neg hover, if_neg hover, refNumerator_mul_refInverse x y (mt hd.1 hne), BitVec.toNat_ofNat, Nat.mod_eq_of_lt hfits]

/-- Settles O31: the algorithm is `mul_div`, and `mul_div_round_up` tests the remainder after it. -/
theorem referenceAlgorithmGivesTheSameResponse : Obligations.ReferenceAlgorithmGivesTheSameResponse := by
  refine ⟨mulDivReference_eq_mulDiv, fun s q hq => ?_⟩
  rw [exec_muldiv_of_some hq, exec_muldivru_of_some hq, mulDivReference_eq_mulDiv, mulDivRoundUp]
  refine ⟨rfl, ?_⟩
  simp only [ite_not]

end Sys2Proof.Machine

/-! PROOF. Component (4), the liquidity delta applier: what `add_delta` answers for each range of the true sum, and so the command. -/

namespace Sys2Proof.Machine

/-! ### The routine (rules R120, R121) -/

section Sum
variable {l : Nat} {d : Int}

/-- A sum in range is returned exactly, whichever sign the delta has. -/
theorem addDelta_fits (h0 : 0 ≤ l + d) (hfits : l + d ≤ 2 ^ 128 - 1) : addDelta l d = .ret (l + d).toNat := by
  have hmax : Config.maxU128 = 2 ^ 128 - 1 := rfl
  unfold addDelta
  by_cases hd : d < 0
  · rw [if_pos hd, if_neg (by omega), Answer.ret.injEq]
    omega
  · rw [if_neg hd, if_neg (by omega), Answer.ret.injEq]
    omega

/-- A negative sum comes from a negative delta, whose magnitude passes the liquidity. -/
theorem addDelta_underflows (h : l + d < 0) : addDelta l d = .raise (.error .underflow) := by
  have hd : d < 0 := by omega
  have hpasses : l < (-d).toNat := by omega
  rw [addDelta, if_pos hd, if_pos hpasses]

/-- A sum above the maximum Liquidity comes from a delta that is not negative. -/
theorem addDelta_overflows (hl : l < 2 ^ 128) (h : 2 ^ 128 - 1 < l + d) : addDelta l d = .raise (.error .overflow) := by
  have hd : ¬ d < 0 := by omega
  have hmax : Config.maxU128 = 2 ^ 128 - 1 := rfl
  have hover : Config.maxU128 < l + d.toNat := by omega
  rw [addDelta, if_neg hd, if_pos hover]

end Sum

/-! ### The command `ADDDELTA` (rule R68) -/

section Command
variable {s : State} {q : InFlight} (hq : s.serving = some q)
include hq

/-- Operands of 128 bits pass the check, and the routine gets their values. -/
theorem exec_adddelta_of_operands_fit (ha : q.req.a.toNat < 2 ^ 128) (hb : q.req.b.toNat < 2 ^ 128) :
    exec .adddelta s = .next (s.complete q.who (addDelta q.req.a.toNat (signed128 q.req.b.toNat))) := by
  have hza := (highHalfZero_iff _).2 ha
  have hzb := (highHalfZero_iff _).2 hb
  have hcheck : checkOperands .adddelta q.req = none := by rw [checkOperands, hza, hzb]; rfl
  rw [exec_of_some hq, answerTo_of_check hcheck, opOf, lowHalf_of_highHalfZero hza, lowHalf_of_highHalfZero hzb]

theorem exec_adddelta_of_high_bits (h : 2 ^ 128 ≤ q.req.a.toNat ∨ 2 ^ 128 ≤ q.req.b.toNat) :
    exec .adddelta s = Spec.replied s q (.fault .illegalOperand) 0 := by
  rw [exec_of_some hq, next_complete_eq_illegalOperand_iff, answerTo_eq_illegalOperand_iff, checkOperands_eq_some_iff]
  exact .inl ⟨rfl, h⟩

end Command

/-- Settles O33: the three ranges of the true sum, and the operand check. -/
theorem adddeltaGivesTheExactSum : Obligations.AdddeltaGivesTheExactSum := by
  refine ⟨rfl, fun s q sum hq hsum => ?_⟩
  replace hsum : sum = q.req.a.toNat + signed128 q.req.b.toNat := hsum
  subst hsum
  refine ⟨fun ha hb h0 hfits => ?_, fun ha hb hunder => ?_, fun ha hb hover => ?_, exec_adddelta_of_high_bits hq⟩
  · rw [exec_adddelta_of_operands_fit hq ha hb, addDelta_fits h0 hfits, complete_ret]
  · rw [exec_adddelta_of_operands_fit hq ha hb, addDelta_underflows hunder, complete_error]
  · rw [exec_adddelta_of_operands_fit hq ha hb, addDelta_overflows ha hover, complete_error]

end Sys2Proof.Machine

/-! PROOF. Component (5), the sqrt-price stepper: the check that ends each body, the token1 quotients on both sides of the threshold,
what each body answers, and so the four commands. -/

namespace Sys2Proof.Machine

/-! ### The check that ends every stepper (rule R130) -/

/-- A routine that ends in the price check returns what it computed, within the bound. -/
theorem andThen_checkPrice_eq_ret {x : Answer} {v : Nat} (h : x.andThen checkPrice = .ret v) : x = .ret v ∧ v ≤ Config.maxU160 := by
  obtain ⟨u, hx, hcheck⟩ := andThen_eq_ret h
  obtain ⟨rfl, hle⟩ := checkPrice_eq_ret hcheck
  exact ⟨hx, hle⟩

theorem nextSqrtPriceFromAmount0RoundingUp_le {p l amt v : Nat} {add : Bool}
    (h : nextSqrtPriceFromAmount0RoundingUp p l amt add = .ret v) : v ≤ Config.maxU160 := by
  unfold nextSqrtPriceFromAmount0RoundingUp at h
  split at h
  · obtain ⟨rfl, hle⟩ := checkPrice_eq_ret h
    exact hle
  · split at h
    · exact (andThen_checkPrice_eq_ret h).2
    · unfold sqrt0RemBody at h
      split at h
      · cases h
      · exact (andThen_checkPrice_eq_ret h).2

theorem sqrt1AddBody_eq_ret {p l amt v : Nat} (h : sqrt1AddBody p l amt = .ret v) :
    ∃ u, token1QuotientDown l amt = .ret u ∧ v = u + p ∧ v ≤ Config.maxU160 := by
  obtain ⟨u, hu, hcheck⟩ := andThen_eq_ret h
  obtain ⟨rfl, hle⟩ := checkPrice_eq_ret hcheck
  exact ⟨u, hu, rfl, hle⟩

theorem sqrt1RemBody_eq_ret {p l amt v : Nat} (h : sqrt1RemBody p l amt = .ret v) :
    ∃ u, token1QuotientUp l amt = .ret u ∧ u < p ∧ v = p - u ∧ v ≤ Config.maxU160 := by
  obtain ⟨u, hu, hrest⟩ := andThen_eq_ret h
  split at hrest
  case isTrue => cases hrest
  case isFalse hlt =>
    obtain ⟨rfl, hle⟩ := checkPrice_eq_ret hrest
    exact ⟨u, hu, Nat.not_le.1 hlt, rfl, hle⟩

theorem nextSqrtPriceFromAmount1RoundingDown_le {p l amt v : Nat} {add : Bool}
    (h : nextSqrtPriceFromAmount1RoundingDown p l amt add = .ret v) : v ≤ Config.maxU160 := by
  cases add with
  | true =>
    obtain ⟨-, -, -, hle⟩ := sqrt1AddBody_eq_ret h
    exact hle
  | false =>
    obtain ⟨-, -, -, -, hle⟩ := sqrt1RemBody_eq_ret h
    exact hle

/-! ### The four commands (rules R68, R130) -/

/-- The commands of component (5). -/
def IsStepper (i : Instr) : Prop := i = .sqrt0Add ∨ i = .sqrt0Rem ∨ i = .sqrt1Add ∨ i = .sqrt1Rem

theorem IsStepper.sqrt0Add : IsStepper .sqrt0Add := .inl rfl
theorem IsStepper.sqrt0Rem : IsStepper .sqrt0Rem := .inr (.inl rfl)
theorem IsStepper.sqrt1Add : IsStepper .sqrt1Add := .inr (.inr (.inl rfl))
theorem IsStepper.sqrt1Rem : IsStepper .sqrt1Rem := .inr (.inr (.inr rfl))

theorem opOf_stepper_le {i : Instr} (hi : IsStepper i) {q : Request} {v : Nat} (h : opOf i q = .ret v) : v ≤ Config.maxU160 := by
  obtain rfl | rfl | rfl | rfl := hi
  · exact nextSqrtPriceFromAmount0RoundingUp_le h
  · exact nextSqrtPriceFromAmount0RoundingUp_le h
  · exact nextSqrtPriceFromAmount1RoundingDown_le h
  · exact nextSqrtPriceFromAmount1RoundingDown_le h

theorem checkOperands_stepper {i : Instr} (hi : IsStepper i) (q : Request) : checkOperands i q = checkLiquiditySlot q := by
  obtain rfl | rfl | rfl | rfl := hi <;> rfl

theorem lowHalf_of_lt {w : Word} (h : w.toNat < 2 ^ 128) : lowHalf w = w.toNat :=
  lowHalf_of_highHalfZero ((highHalfZero_iff w).2 h)

theorem checkLiquiditySlot_of_fits {q : Request} (hb : q.b.toNat < 2 ^ 128) : checkLiquiditySlot q = none := by
  rw [checkLiquiditySlot, if_pos ((highHalfZero_iff _).2 hb)]

section Commands
variable {s : State} {q : InFlight} (hq : s.serving = some q)
include hq

theorem exec_stepper_of_fits {i : Instr} (hi : IsStepper i) (hb : q.req.b.toNat < 2 ^ 128) :
    exec i s = .next (s.complete q.who (opOf i q.req)) := by
  rw [exec_of_some hq, answerTo_of_check ((checkOperands_stepper hi _).trans (checkLiquiditySlot_of_fits hb))]

/-- Where only the price check is left, the bound decides between the price and `PriceOverflow`. -/
theorem exec_stepper_of_checkPrice {i : Instr} (hi : IsStepper i) (hb : q.req.b.toNat < 2 ^ 128) {p : Nat}
    (hop : opOf i q.req = checkPrice p) :
    (p ≤ 2 ^ 160 - 1 → exec i s = Spec.replied s q .ok (BitVec.ofNat 256 p)) ∧
    (2 ^ 160 - 1 < p → exec i s = Spec.replied s q (.error .priceOverflow) 0) := by
  rw [exec_stepper_of_fits hq hi hb, hop]
  exact ⟨fun hle => by rw [checkPrice_fits hle, complete_ret], fun hlt => by rw [checkPrice_overflows hlt, complete_error]⟩

/-- A stepper that succeeds got a 128-bit liquidity, and its `R` is what its routine returned. -/
theorem exec_stepper_eq_ok {i : Instr} (hi : IsStepper i) {r : Word} (h : exec i s = Spec.replied s q .ok r) :
    q.req.b.toNat < 2 ^ 128 ∧ opOf i q.req = .ret r.toNat := by
  have hcheck : checkOperands i q.req = none := by
    obtain ⟨hnone, -⟩ | ⟨-, he⟩ := answerTo_cases i (opOf i) q.req
    · exact hnone
    · rw [exec_of_some hq, he] at h
      cases response_of_next_complete_eq_replied h
  have hlt (v : Nat) (hv : opOf i q.req = .ret v) : v < 2 ^ 256 := (opOf_stepper_le hi hv).trans_lt (by decide)
  refine ⟨Nat.not_le.1 fun hhigh => ?_, (exec_eq_replied_ok_iff hq hcheck hlt).1 h⟩
  rw [checkOperands_stepper hi, (checkLiquiditySlot_eq_some_iff _).2 hhigh] at hcheck
  cases hcheck

end Commands

/-- Settles O42: the price check ends every routine of component (5). -/
theorem stepperResultsFitIn160Bits : Obligations.StepperResultsFitIn160Bits := fun _ _ _ _ hq hi h =>
  opOf_stepper_le hi (exec_stepper_eq_ok hq hi h).2

/-! ### `SQRT0` (rules R131-R134) -/

section Token0Operands
variable {q : Request}

theorem opOf_sqrt0_of_zero_amount {i : Instr} (hi : i = .sqrt0Add ∨ i = .sqrt0Rem) (hc : q.c.toNat = 0) :
    opOf i q = checkPrice q.a.toNat := by
  obtain rfl | rfl := hi <;> rw [opOf, nextSqrtPriceFromAmount0RoundingUp, if_pos hc]

theorem opOf_sqrt0Add (hb : q.b.toNat < 2 ^ 128) (hc : q.c.toNat ≠ 0) :
    opOf .sqrt0Add q = sqrt0AddBody (q.b.toNat * 2 ^ 96) q.a.toNat q.c.toNat := by
  rw [opOf, nextSqrtPriceFromAmount0RoundingUp, if_neg hc, if_pos rfl, lowHalf_of_lt hb]

theorem opOf_sqrt0Rem (hb : q.b.toNat < 2 ^ 128) (hc : q.c.toNat ≠ 0) :
    opOf .sqrt0Rem q = sqrt0RemBody (q.b.toNat * 2 ^ 96) q.a.toNat q.c.toNat := by
  rw [opOf, nextSqrtPriceFromAmount0RoundingUp, if_neg hc, if_neg Bool.false_ne_true, lowHalf_of_lt hb]

end Token0Operands

/-- Settles O34: with an amount of 0 only the price check is left. -/
theorem token0ZeroAmountKeepsThePrice : Obligations.Token0ZeroAmountKeepsThePrice := by
  intro s q i hq hi hb hc
  have hsteps := exec_stepper_of_checkPrice hq (hi.imp_right .inl) hb (opOf_sqrt0_of_zero_amount hi (congrArg BitVec.toNat hc))
  rwa [BitVec.ofNat_toNat, BitVec.setWidth_eq] at hsteps

/-- The exact formula of `SQRT0.ADD` does not pass `2^256` (rule R132). -/
abbrev ExactFormFits (n p amt : Nat) : Prop := amt * p < 2 ^ 256 ∧ n + amt * p < 2 ^ 256

section Token0
variable {n p amt : Nat}

/-- The divisor of the exact formula is at least `n`, so its quotient is at most the price. -/
theorem ceilDiv_mul_add_le (hd : n + amt * p ≠ 0) : ceilDiv (n * p) (n + amt * p) ≤ p := by
  rw [ceilDiv_le_iff _ _ _ (Nat.pos_of_ne_zero hd), Nat.mul_comm p]
  exact Nat.mul_le_mul_right p (Nat.le_add_right _ _)

theorem sqrt0AddBody_of_exact (hp : p < 2 ^ 256) (hd : n + amt * p ≠ 0) (hfits : ExactFormFits n p amt) :
    sqrt0AddBody n p amt = checkPrice (ceilDiv (n * p) (n + amt * p)) := by
  have hquot : mulDivRoundUp n p (n + amt * p) = .ret (ceilDiv (n * p) (n + amt * p)) :=
    mulDivRoundUp_fits hd ((ceilDiv_mul_add_le hd).trans_lt hp)
  rw [sqrt0AddBody, if_pos hfits, hquot, andThen_ret]

theorem fallbackQuotient_of_ne_zero {d : Nat} (hd : d ≠ 0) : fallbackQuotient n d = .ret (ceilDiv n d) := by
  rw [fallbackQuotient, unsafeDivRoundUp_pos hd, ite_self]

theorem sqrt0AddBody_of_fallback (hamt : amt ≠ 0) (hfits : ¬ExactFormFits n p amt) :
    sqrt0AddBody n p amt = checkPrice (ceilDiv n (n / p + amt)) := by
  have hd : n / p + amt ≠ 0 := fun h => hamt (Nat.add_eq_zero_iff.1 h).2
  rw [sqrt0AddBody, if_neg hfits, fallbackQuotient_of_ne_zero hd, andThen_ret]

/-- With neither price nor liquidity the exact formula divides 0 by 0. -/
theorem sqrt0AddBody_zero (amt : Nat) : sqrt0AddBody 0 0 amt = .raise (.error .divisionByZero) := by
  have hdiv : mulDivRoundUp 0 0 0 = .raise (.error .divisionByZero) := mulDivRoundUp_of_raise (mulDiv_zero_fits (by decide))
  simp [sqrt0AddBody, hdiv]

theorem sqrt0RemBody_of_not_removable (h : 2 ^ 256 ≤ amt * p ∨ n ≤ amt * p) :
    sqrt0RemBody n p amt = .raise (.error .productDivAmount) := by
  rw [sqrt0RemBody, if_pos (h.imp_right Nat.not_lt.2)]

theorem sqrt0RemBody_of_removable (hprod : amt * p < 2 ^ 256) (hlt : amt * p < n) :
    sqrt0RemBody n p amt = (mulDivRoundUp n p (n - amt * p)).andThen checkPrice := by
  rw [sqrt0RemBody, if_neg (by rw [not_or, not_not]; exact ⟨Nat.not_le.2 hprod, hlt⟩)]

end Token0

/-- Settles O35: each form leaves its ceiling to the price check, but for the exact form with a divisor of 0. -/
theorem sqrt0AddSteps : Obligations.Sqrt0AddSteps := by
  refine ⟨rfl, ?_⟩
  rintro s q P N amt r hq hb rfl rfl rfl hamt
  have hne : q.req.c.toNat ≠ 0 := Nat.ne_of_gt hamt
  have hop := opOf_sqrt0Add hb hne
  refine ⟨fun hP hN => ?_, fun hsome hr => exec_stepper_of_checkPrice hq .sqrt0Add hb (hop.trans ?_)⟩
  · rw [exec_stepper_of_fits hq .sqrt0Add hb, hop, hP, hN, sqrt0AddBody_zero, complete_error]
  · generalize q.req.b.toNat * 2 ^ 96 = n at hr hsome ⊢
    by_cases hfits : ExactFormFits n q.req.a.toNat q.req.c.toNat
    · have hd : n + q.req.c.toNat * q.req.a.toNat ≠ 0 := by
        rw [Ne, Nat.add_eq_zero_iff, Nat.mul_eq_zero, or_iff_right hne]
        exact fun ⟨hN, hP⟩ => hsome ⟨hP, hN⟩
      rw [if_pos hfits, ← ceilDiv_eq_div _ _ (Nat.pos_of_ne_zero hd)] at hr
      rw [sqrt0AddBody_of_exact q.req.a.isLt hd hfits, hr]
    · rw [if_neg hfits, ← ceilDiv_eq_div _ _ (Nat.add_pos_right _ hamt)] at hr
      rw [sqrt0AddBody_of_fallback hne hfits, hr]

/-- Settles O36: the two tests of the product, then the four ways in which the rounded quotient and the price check can end. -/
theorem sqrt0RemSteps : Obligations.Sqrt0RemSteps := by
  refine ⟨rfl, ?_⟩
  rintro s q P N amt D hq hb rfl rfl rfl hamt rfl
  rw [exec_stepper_of_fits hq .sqrt0Rem hb, opOf_sqrt0Rem hb (Nat.ne_of_gt hamt)]
  refine ⟨fun h => ?_, fun hprod hlt => ?_⟩
  · rw [sqrt0RemBody_of_not_removable h, complete_error]
  · have hpos := Nat.sub_pos_of_lt hlt
    rw [sqrt0RemBody_of_removable hprod hlt, ← ceilDiv_eq_div _ _ hpos]
    refine ⟨fun hover => ?_, fun hfloor hmax => ?_, fun hfits hprice => ?_, fun hprice => ?_⟩
    · rw [mulDivRoundUp_of_raise (mulDiv_overflows hpos.ne' hover), andThen_raise, complete_error]
    · rw [mulDivRoundUp_isMax hpos.ne' hfloor hmax, andThen_raise, complete_error]
    · rw [mulDivRoundUp_fits hpos.ne' hfits, andThen_ret, checkPrice_overflows hprice, complete_error]
    · rw [mulDivRoundUp_fits hpos.ne' (hprice.trans_lt (by decide)), andThen_ret, checkPrice_fits hprice, complete_ret]

/-- Every number below a ceiling is below the exact quotient. -/
theorem mul_lt_of_lt_ceilDiv {x y m : Nat} (hy : 0 < y) (h : m < ceilDiv x y) : m * y < x :=
  Nat.not_le.1 fun hle => Nat.not_le.2 h ((ceilDiv_le_iff x y m hy).2 hle)

section Token0Laws
variable {n p amt v : Nat}

/-- What `SQRT0.ADD` returns: its exact form only where that fits, and some price or liquidity to divide by. -/
theorem sqrt0AddBody_eq_ret (hp : p < 2 ^ 256) (hn : n < 2 ^ 256) (hamt : amt ≠ 0) (h : sqrt0AddBody n p amt = .ret v) :
    (ExactFormFits n p amt ∧ n + amt * p ≠ 0 ∧ v = ceilDiv (n * p) (n + amt * p)) ∨
    (¬ExactFormFits n p amt ∧ p ≠ 0 ∧ v = ceilDiv n (n / p + amt)) := by
  by_cases hfits : ExactFormFits n p amt
  · have hd : n + amt * p ≠ 0 := by
      intro hd
      obtain ⟨rfl, hprod⟩ := Nat.add_eq_zero_iff.1 hd
      obtain rfl := (Nat.mul_eq_zero.1 hprod).resolve_left hamt
      rw [sqrt0AddBody_zero] at h
      cases h
    rw [sqrt0AddBody_of_exact hp hd hfits] at h
    exact .inl ⟨hfits, hd, (checkPrice_eq_ret h).1⟩
  · have hprice : p ≠ 0 := by
      rintro rfl
      exact hfits ⟨by simp, by simpa using hn⟩
    rw [sqrt0AddBody_of_fallback hamt hfits] at h
    exact .inr ⟨hfits, hprice, (checkPrice_eq_ret h).1⟩

/-- The divisor of the fallback is above the exact `n / p`, and not above the exact `(n + amt * p) / p`. -/
theorem fallback_between (hp : p ≠ 0) (hamt : amt ≠ 0) :
    ceilDiv n (n / p + amt) ≤ p ∧ n * p ≤ ceilDiv n (n / p + amt) * (n + amt * p) := by
  have hpos : 0 < n / p + amt := Nat.add_pos_right _ (Nat.pos_of_ne_zero hamt)
  constructor
  · rw [ceilDiv_le_iff _ _ _ hpos]
    calc n ≤ p * (n / p + 1) := (Nat.lt_mul_div_succ n (Nat.pos_of_ne_zero hp)).le
      _ ≤ p * (n / p + amt) := Nat.mul_le_mul_left p (Nat.add_le_add_left (Nat.pos_of_ne_zero hamt) _)
  · calc n * p ≤ ceilDiv n (n / p + amt) * (n / p + amt) * p := Nat.mul_le_mul_right p (le_ceilDiv_mul n _ hpos)
      _ = ceilDiv n (n / p + amt) * (n / p * p + amt * p) := by rw [Nat.mul_assoc, Nat.add_mul]
      _ ≤ ceilDiv n (n / p + amt) * (n + amt * p) :=
        Nat.mul_le_mul_left _ (Nat.add_le_add_right (Nat.div_mul_le_self n p) _)

/-- What `SQRT0.REM` returns. -/
theorem sqrt0RemBody_eq_ret (h : sqrt0RemBody n p amt = .ret v) : amt * p < n ∧ v = ceilDiv (n * p) (n - amt * p) := by
  by_cases hremovable : 2 ^ 256 ≤ amt * p ∨ n ≤ amt * p
  · rw [sqrt0RemBody_of_not_removable hremovable] at h
    cases h
  · obtain ⟨hprod, hlt⟩ := not_or.1 hremovable
    rw [sqrt0RemBody_of_removable (Nat.not_le.1 hprod) (Nat.not_le.1 hlt)] at h
    exact ⟨Nat.not_le.1 hlt, (mulDivRoundUp_eq_ret (andThen_checkPrice_eq_ret h).1).1⟩

/-- The divisor of `SQRT0.REM` is at most `n`, so its quotient is at least the price. -/
theorem le_ceilDiv_mul_sub (hlt : amt * p < n) : p ≤ ceilDiv (n * p) (n - amt * p) := by
  have hceil := le_ceilDiv_mul (n * p) (n - amt * p) (Nat.sub_pos_of_lt hlt)
  refine Nat.le_of_mul_le_mul_left ?_ (Nat.zero_lt_of_lt hlt)
  calc n * p ≤ ceilDiv (n * p) (n - amt * p) * (n - amt * p) := hceil
    _ ≤ ceilDiv (n * p) (n - amt * p) * n := Nat.mul_le_mul_left _ (Nat.sub_le _ _)
    _ = n * ceilDiv (n * p) (n - amt * p) := Nat.mul_comm _ _

end Token0Laws

/-- A token0 command that succeeds with an amount of 0 gives the starting price. -/
theorem sqrt0_eq_ok_of_zero_amount {s : State} {q : InFlight} {i : Instr} {r : Word} (hq : s.serving = some q)
    (hi : i = .sqrt0Add ∨ i = .sqrt0Rem) (hc : q.req.c.toNat = 0) (h : exec i s = Spec.replied s q .ok r) :
    r.toNat = q.req.a.toNat := by
  obtain ⟨-, hret⟩ := exec_stepper_eq_ok hq (hi.imp_right .inl) h
  rw [opOf_sqrt0_of_zero_amount hi hc] at hret
  exact (checkPrice_eq_ret hret).1

/-- Settles O37: the amount 0 keeps the price; any other gives a ceiling, of the exact quotient or of the fallback's. -/
theorem token0ResultsRoundUpAndStayOnTheirSide : Obligations.Token0ResultsRoundUpAndStayOnTheirSide := by
  rintro s q P N amt r hq rfl rfl rfl
  refine ⟨fun h => ?_, fun h => ?_⟩
  · by_cases hamt : q.req.c.toNat = 0
    · rw [sqrt0_eq_ok_of_zero_amount hq (.inl rfl) hamt h, hamt, Nat.zero_mul, Nat.add_zero, Nat.mul_comm]
      exact ⟨le_rfl, le_rfl, fun hpos => absurd hpos (by decide)⟩
    · obtain ⟨hb, hret⟩ := exec_stepper_eq_ok hq .sqrt0Add h
      rw [opOf_sqrt0Add hb hamt] at hret
      obtain ⟨hfits, hd, hr⟩ | ⟨hfits, hp, hr⟩ := sqrt0AddBody_eq_ret q.req.a.isLt (by omega) hamt hret
      · rw [hr]
        exact ⟨ceilDiv_mul_add_le hd, le_ceilDiv_mul _ _ (Nat.pos_of_ne_zero hd),
          fun _ _ _ m => mul_lt_of_lt_ceilDiv (Nat.pos_of_ne_zero hd)⟩
      · obtain ⟨hle, hge⟩ := fallback_between (n := q.req.b.toNat * 2 ^ 96) hp hamt
        rw [hr]
        exact ⟨hle, hge, fun _ hprod hsum => absurd ⟨hprod, hsum⟩ hfits⟩
  · by_cases hamt : q.req.c.toNat = 0
    · rw [sqrt0_eq_ok_of_zero_amount hq (.inr rfl) hamt h, hamt, Nat.zero_mul, Nat.sub_zero, Nat.mul_comm]
      exact ⟨le_rfl, le_rfl, fun hpos => absurd hpos (by decide)⟩
    · obtain ⟨hb, hret⟩ := exec_stepper_eq_ok hq .sqrt0Rem h
      rw [opOf_sqrt0Rem hb hamt] at hret
      obtain ⟨hlt, hr⟩ := sqrt0RemBody_eq_ret hret
      have hpos := Nat.sub_pos_of_lt hlt
      rw [hr]
      exact ⟨le_ceilDiv_mul_sub hlt, le_ceilDiv_mul _ _ hpos, fun _ m => mul_lt_of_lt_ceilDiv hpos⟩

/-! ### `SQRT1` (rules R135-R139) -/

/-- Up to the threshold the numerator fits in 256 bits. -/
theorem amount_shifted_lt {amt : Nat} (h : amt ≤ Config.maxU160) : amt * 2 ^ 96 < 2 ^ 256 := by
  have hmax : Config.maxU160 = 2 ^ 160 - 1 := rfl
  omega

/-- Above the threshold the numerator passes 256 bits. -/
theorem le_amount_shifted {amt : Nat} (h : Config.maxU160 < amt) : 2 ^ 256 ≤ amt * 2 ^ 96 := by
  have hmax : Config.maxU160 = 2 ^ 160 - 1 := rfl
  omega

section Token1Quotients
variable {l amt : Nat}

theorem token1QuotientDown_of_direct (hl : l ≠ 0) (hamt : amt ≤ Config.maxU160) :
    token1QuotientDown l amt = .ret (amt * 2 ^ 96 / l) := by
  rw [token1QuotientDown, if_pos hamt, if_neg hl]

theorem token1QuotientUp_of_direct (hl : l ≠ 0) (hamt : amt ≤ Config.maxU160) :
    token1QuotientUp l amt = .ret (ceilDiv (amt * 2 ^ 96) l) := by
  rw [token1QuotientUp, if_pos hamt, if_neg hl, unsafeDivRoundUp_pos hl]

/-- Rule R138: below the threshold too, `mul_div` gives the direct quotient, or `DivisionByZero` without liquidity. -/
theorem token1QuotientDown_eq_mulDiv (l amt : Nat) : token1QuotientDown l amt = mulDiv amt (2 ^ 96) l := by
  by_cases hamt : amt ≤ Config.maxU160
  · have hnum := amount_shifted_lt hamt
    by_cases hl : l = 0
    · rw [token1QuotientDown, if_pos hamt, if_pos hl, hl, mulDiv_zero_fits hnum]
    · rw [token1QuotientDown_of_direct hl hamt, mulDiv_fits hl ((Nat.div_le_self _ _).trans_lt hnum)]
  · rw [token1QuotientDown, if_neg hamt]

theorem token1QuotientUp_eq_mulDivRoundUp (l amt : Nat) : token1QuotientUp l amt = mulDivRoundUp amt (2 ^ 96) l := by
  by_cases hamt : amt ≤ Config.maxU160
  · have hnum := amount_shifted_lt hamt
    by_cases hl : l = 0
    · rw [token1QuotientUp, if_pos hamt, if_pos hl, hl, mulDivRoundUp_of_raise (mulDiv_zero_fits hnum)]
    · rw [token1QuotientUp_of_direct hl hamt, mulDivRoundUp_fits hl ((ceilDiv_le_self (Nat.pos_of_ne_zero hl)).trans_lt hnum)]
  · rw [token1QuotientUp, if_neg hamt]

/-- Rule R137: a ceiling of `2^256` over a floor that fits would need `l` above `2^96`, since the numerator is a multiple of `2^96`,
and so an amount of more than 256 bits. -/
theorem ceilDiv_amount_shifted_lt (hamt : amt < 2 ^ 256) (hl : l ≠ 0) (hfloor : amt * 2 ^ 96 / l < 2 ^ 256) :
    ceilDiv (amt * 2 ^ 96) l < 2 ^ 256 := by
  have hpos := Nat.pos_of_ne_zero hl
  rw [Nat.div_lt_iff_lt_mul hpos] at hfloor
  have hle : ceilDiv (amt * 2 ^ 96) l ≤ 2 ^ 256 - 1 := (ceilDiv_le_iff _ _ _ hpos).2 (by omega)
  exact hle.trans_lt (by decide)

end Token1Quotients

/-- Settles O40: each direction in full precision, and the quotients of the direct path. -/
theorem token1PathsAgree : Obligations.Token1PathsAgree := fun l amt =>
  ⟨token1QuotientDown_eq_mulDiv l amt, token1QuotientUp_eq_mulDivRoundUp l amt, fun hl hamt =>
    ⟨token1QuotientDown_of_direct hl hamt,
      ceilDiv_eq_div _ _ (Nat.pos_of_ne_zero hl) ▸ token1QuotientUp_of_direct hl hamt⟩⟩

section Token1Operands
variable {q : Request} (hb : q.b.toNat < 2 ^ 128)
include hb

theorem opOf_sqrt1Add : opOf .sqrt1Add q = sqrt1AddBody q.a.toNat q.b.toNat q.c.toNat := by
  rw [opOf, lowHalf_of_lt hb]
  rfl

theorem opOf_sqrt1Rem : opOf .sqrt1Rem q = sqrt1RemBody q.a.toNat q.b.toNat q.c.toNat := by
  rw [opOf, lowHalf_of_lt hb]
  rfl

end Token1Operands

section Token1
variable {p l amt : Nat} {e : Raise}

theorem sqrt1AddBody_of_raise (h : mulDiv amt (2 ^ 96) l = .raise e) : sqrt1AddBody p l amt = .raise e := by
  rw [sqrt1AddBody, token1QuotientDown_eq_mulDiv, h, andThen_raise]

theorem sqrt1RemBody_of_raise (h : mulDiv amt (2 ^ 96) l = .raise e) : sqrt1RemBody p l amt = .raise e := by
  rw [sqrt1RemBody, token1QuotientUp_eq_mulDivRoundUp, mulDivRoundUp_of_raise h, andThen_raise]

theorem sqrt1AddBody_of_fits (hl : l ≠ 0) (h : amt * 2 ^ 96 / l < 2 ^ 256) :
    sqrt1AddBody p l amt = checkPrice (amt * 2 ^ 96 / l + p) := by
  rw [sqrt1AddBody, token1QuotientDown_eq_mulDiv, mulDiv_fits hl h, andThen_ret]

theorem sqrt1RemBody_of_le (hl : l ≠ 0) (h : ceilDiv (amt * 2 ^ 96) l < 2 ^ 256) (hle : p ≤ ceilDiv (amt * 2 ^ 96) l) :
    sqrt1RemBody p l amt = .raise (.error .priceUnderflow) := by
  rw [sqrt1RemBody, token1QuotientUp_eq_mulDivRoundUp, mulDivRoundUp_fits hl h, andThen_ret, if_pos hle]

theorem sqrt1RemBody_of_lt (hl : l ≠ 0) (hp : p < 2 ^ 256) (hlt : ceilDiv (amt * 2 ^ 96) l < p) :
    sqrt1RemBody p l amt = checkPrice (p - ceilDiv (amt * 2 ^ 96) l) := by
  rw [sqrt1RemBody, token1QuotientUp_eq_mulDivRoundUp, mulDivRoundUp_fits hl (hlt.trans hp), andThen_ret,
    if_neg (Nat.not_le.2 hlt)]

end Token1

/-- Settles O38: the errors of the floor pass through, and the sum of a floor that fits is left to the price check. -/
theorem sqrt1AddSteps : Obligations.Sqrt1AddSteps := by
  refine ⟨rfl, ?_⟩
  rintro s q P L amt v hq hb rfl rfl rfl rfl
  rw [exec_stepper_of_fits hq .sqrt1Add hb, opOf_sqrt1Add hb]
  refine ⟨fun hl hamt => ?_, fun hl hamt => ?_, fun hl hover => ?_, fun hl hfits hprice => ?_, fun hl hprice => ?_⟩
  · rw [hl, sqrt1AddBody_of_raise (mulDiv_zero_fits (amount_shifted_lt hamt)), complete_error]
  · rw [hl, sqrt1AddBody_of_raise (mulDiv_zero_overflows (le_amount_shifted hamt)), complete_error]
  · rw [sqrt1AddBody_of_raise (mulDiv_overflows hl hover), complete_error]
  · rw [sqrt1AddBody_of_fits hl hfits, checkPrice_overflows hprice, complete_error]
  · have hfits := (Nat.le_of_add_right_le hprice).trans_lt (by decide : 2 ^ 160 - 1 < 2 ^ 256)
    rw [sqrt1AddBody_of_fits hl hfits, checkPrice_fits hprice, complete_ret]

/-- Settles O39: the errors of the floor pass through, and a ceiling that fits is compared with the price. -/
theorem sqrt1RemSteps : Obligations.Sqrt1RemSteps := by
  refine ⟨rfl, ?_⟩
  rintro s q P L amt v hq hb rfl rfl rfl rfl
  rw [exec_stepper_of_fits hq .sqrt1Rem hb, opOf_sqrt1Rem hb]
  have hceil (hl : q.req.b.toNat ≠ 0) := ceilDiv_eq_div (q.req.c.toNat * 2 ^ 96) q.req.b.toNat (Nat.pos_of_ne_zero hl)
  refine ⟨fun hl hamt => ?_, fun hl hamt => ?_, fun hl hover => ?_, fun hl hfloor hle => ?_, fun hl hlt hprice => ?_,
    fun hl hlt hprice => ?_⟩
  · rw [hl, sqrt1RemBody_of_raise (mulDiv_zero_fits (amount_shifted_lt hamt)), complete_error]
  · rw [hl, sqrt1RemBody_of_raise (mulDiv_zero_overflows (le_amount_shifted hamt)), complete_error]
  · rw [sqrt1RemBody_of_raise (mulDiv_overflows hl hover), complete_error]
  · rw [← hceil hl] at hle
    rw [sqrt1RemBody_of_le hl (ceilDiv_amount_shifted_lt q.req.c.isLt hl hfloor) hle, complete_error]
  · rw [← hceil hl] at hlt hprice
    rw [sqrt1RemBody_of_lt hl q.req.a.isLt hlt, checkPrice_overflows hprice, complete_error]
  · rw [← hceil hl] at hlt hprice ⊢
    rw [sqrt1RemBody_of_lt hl q.req.a.isLt hlt, checkPrice_fits hprice, complete_ret]

/-- A token1 round trip adds a floor and takes the ceiling of the same quotient. -/
theorem sqrt1_round_trip {p l amt u v : Nat} (hadd : sqrt1AddBody p l amt = .ret u) (hrem : sqrt1RemBody u l amt = .ret v) :
    v = p ∨ v + 1 = p := by
  obtain ⟨d, hd, rfl, -⟩ := sqrt1AddBody_eq_ret hadd
  obtain ⟨c, hc, hlt, rfl, -⟩ := sqrt1RemBody_eq_ret hrem
  rw [token1QuotientDown_eq_mulDiv] at hd
  rw [token1QuotientUp_eq_mulDivRoundUp] at hc
  obtain ⟨rfl, -⟩ := mulDivRoundUp_of_ret hd
  obtain ⟨rfl, -⟩ := mulDivRoundUp_eq_ret hc
  obtain ⟨hfloor | hsucc, -⟩ := ceilDiv_eq_or_succ (amt * 2 ^ 96) l <;> omega

/-- Settles O41: the round trip of token1, and the rule's own example of token0. -/
theorem token1RoundTripWithinOne : Obligations.Token1RoundTripWithinOne := by
  refine ⟨?_, by decide, by decide⟩
  rintro s t q p u v hs ht hb hc rfl hadd hrem
  obtain ⟨hbq, hu⟩ := exec_stepper_eq_ok hs .sqrt1Add hadd
  obtain ⟨hbp, hv⟩ := exec_stepper_eq_ok ht .sqrt1Rem hrem
  rw [opOf_sqrt1Add hbq] at hu
  rw [opOf_sqrt1Rem hbp, hb, hc] at hv
  exact sqrt1_round_trip hu hv

end Sys2Proof.Machine

/-! PROOF. Exceptions: the status codes, the statuses that each command can write, the result beside a status that is not `OK`,
and the faults: who is answered one, who takes it, and the run that it fails. -/

namespace Sys2Proof.Machine

/-! ### The idle unit (rule R177) -/

/-- Settles O8: with the port free and nothing waiting, `step` gives back its state. -/
theorem idleUnitDoesNothing : Obligations.IdleUnitDoesNothing := fun _ => step_of_idle

/-! ### Status codes (rules R160, R164) -/

theorem ofCode?_code (st : Status) : Status.ofCode? st.code = some st := by
  rcases st with _ | e | f
  · rfl
  · cases e <;> rfl
  · cases f <;> rfl

/-- A code that stands for no status is the code of none. -/
theorem code_ne_of_ofCode?_eq_none {n : StatusCode} (h : Status.ofCode? n = none) (st : Status) : st.code ≠ n := by
  rintro rfl
  rw [ofCode?_code] at h
  cases h

/-- Settles O43: the table row by row; each code gives back its status, and the reserved codes stand for none. -/
theorem statusCodesAreThoseOfTheTable : Obligations.StatusCodesAreThoseOfTheTable :=
  ⟨rfl, rfl, rfl, rfl, rfl, rfl, rfl, rfl, rfl, rfl, rfl, rfl, rfl, fun st =>
    ⟨code_ne_of_ofCode?_eq_none rfl st, code_ne_of_ofCode?_eq_none rfl st, code_ne_of_ofCode?_eq_none rfl st, ofCode?_code st⟩⟩

/-! ### What each routine can raise (rules R80-R137) -/

section Raises
variable {e : Raise}

theorem indexAnswer_eq_raise {o : Option Nat} (h : indexAnswer o = .raise e) : e = .error .zeroHasNoBit := by
  cases o <;> cases h
  rfl

theorem mostSignificantBit_eq_raise {x : Nat} (h : mostSignificantBit x = .raise e) : e = .error .zeroHasNoBit := by
  unfold mostSignificantBit at h
  split at h
  · cases h
    rfl
  · exact indexAnswer_eq_raise h

theorem leastSignificantBit_eq_raise {x : Nat} (h : leastSignificantBit x = .raise e) : e = .error .zeroHasNoBit := by
  unfold leastSignificantBit at h
  split at h
  · cases h
    rfl
  · exact indexAnswer_eq_raise h

theorem unsafeDivRoundUp_eq_raise {x y : Nat} (h : unsafeDivRoundUp x y = .raise e) : e = .fault .unsafeDivByZero := by
  unfold unsafeDivRoundUp at h
  split at h <;> cases h
  rfl

theorem addDelta_eq_raise {l : Nat} {d : Int} (h : addDelta l d = .raise e) : e = .error .underflow ∨ e = .error .overflow := by
  unfold addDelta at h
  split at h
  · split at h <;> cases h
    exact .inl rfl
  · split at h <;> cases h
    exact .inr rfl

theorem mulDiv_eq_raise {x y d : Nat} (h : mulDiv x y d = .raise e) :
    (e = .error .divisionByZero ∧ d = 0) ∨ e = .error .resultOverflow := by
  obtain ⟨-, -, he⟩ | ⟨hd, -, he⟩ | ⟨-, -, he⟩ := mulDiv_cases x y d <;> rw [he] at h <;> cases h
  · exact .inl ⟨rfl, hd⟩
  · exact .inr rfl

/-- `ResultIsMax` is a floor that fits under a ceiling that does not. -/
theorem mulDivRoundUp_eq_raise {x y d : Nat} (h : mulDivRoundUp x y d = .raise e) :
    (e = .error .divisionByZero ∧ d = 0) ∨ e = .error .resultOverflow ∨
      (e = .error .resultIsMax ∧ d ≠ 0 ∧ x * y / d < 2 ^ 256 ∧ ceilDiv (x * y) d = 2 ^ 256) := by
  obtain hdiv | ⟨r, hr, -⟩ := andThen_eq_raise h
  · exact (mulDiv_eq_raise hdiv).imp_right .inl
  · obtain ⟨hfloor, hd, hlt, ⟨-, he⟩ | ⟨hmax, he⟩⟩ := mulDivRoundUp_of_ret hr <;> cases h.symm.trans he
    exact .inr (.inr ⟨rfl, hd, hfloor ▸ hlt, hmax⟩)

theorem checkPrice_eq_raise {p : Nat} (h : checkPrice p = .raise e) : e = .error .priceOverflow ∧ Config.maxU160 < p := by
  obtain ⟨-, he⟩ | ⟨hlt, he⟩ := checkPrice_cases p <;> rw [he] at h <;> cases h
  exact ⟨rfl, hlt⟩

/-- Both forms of `SQRT0.ADD` leave at most the price to the price check, but for the exact form with a divisor of 0. -/
theorem sqrt0AddBody_cases {n p amt : Nat} (hp : p < 2 ^ 256) (hn : n < 2 ^ 256) (hamt : amt ≠ 0) :
    sqrt0AddBody n p amt = .raise (.error .divisionByZero) ∨ ∃ v ≤ p, sqrt0AddBody n p amt = checkPrice v := by
  by_cases hfits : ExactFormFits n p amt
  · by_cases hd : n + amt * p = 0
    · obtain ⟨rfl, hprod⟩ := Nat.add_eq_zero_iff.1 hd
      obtain rfl := (Nat.mul_eq_zero.1 hprod).resolve_left hamt
      exact .inl (sqrt0AddBody_zero amt)
    · exact .inr ⟨_, ceilDiv_mul_add_le hd, sqrt0AddBody_of_exact hp hd hfits⟩
  · have hprice : p ≠ 0 := by
      rintro rfl
      exact hfits ⟨by simp, by simpa using hn⟩
    obtain ⟨hle, -⟩ := fallback_between (n := n) hprice hamt
    exact .inr ⟨_, hle, sqrt0AddBody_of_fallback hamt hfits⟩

theorem sqrt0AddBody_eq_raise {n p amt : Nat} (hp : p < 2 ^ 256) (hn : n < 2 ^ 256) (hamt : amt ≠ 0)
    (h : sqrt0AddBody n p amt = .raise e) : e = .error .divisionByZero ∨ (e = .error .priceOverflow ∧ Config.maxU160 < p) := by
  obtain he | ⟨v, hle, he⟩ := sqrt0AddBody_cases hp hn hamt <;> rw [he] at h
  · cases h
    exact .inl rfl
  · exact .inr ((checkPrice_eq_raise h).imp_right fun hlt => hlt.trans_le hle)

/-- The divisor is a difference that is not 0, so there is no `DivisionByZero`. -/
theorem sqrt0RemBody_eq_raise {n p amt : Nat} (h : sqrt0RemBody n p amt = .raise e) :
    e = .error .productDivAmount ∨ e = .error .resultOverflow ∨ e = .error .resultIsMax ∨ e = .error .priceOverflow := by
  by_cases hremovable : 2 ^ 256 ≤ amt * p ∨ n ≤ amt * p
  · rw [sqrt0RemBody_of_not_removable hremovable] at h
    cases h
    exact .inl rfl
  · obtain ⟨hprod, hlt⟩ := not_or.1 hremovable
    rw [sqrt0RemBody_of_removable (Nat.not_le.1 hprod) (Nat.not_le.1 hlt)] at h
    obtain hquot | ⟨v, -, hcheck⟩ := andThen_eq_raise h
    · obtain ⟨-, hd⟩ | hover | ⟨hmax, -⟩ := mulDivRoundUp_eq_raise hquot
      · exact absurd hd (Nat.sub_pos_of_lt (Nat.not_le.1 hlt)).ne'
      · exact .inr (.inl hover)
      · exact .inr (.inr (.inl hmax))
    · exact .inr (.inr (.inr (checkPrice_eq_raise hcheck).1))

theorem sqrt1AddBody_eq_raise {p l amt : Nat} (h : sqrt1AddBody p l amt = .raise e) :
    e = .error .divisionByZero ∨ e = .error .resultOverflow ∨ e = .error .priceOverflow := by
  obtain hquot | ⟨v, -, hcheck⟩ := andThen_eq_raise h
  · rw [token1QuotientDown_eq_mulDiv] at hquot
    exact (mulDiv_eq_raise hquot).imp And.left .inl
  · exact .inr (.inr (checkPrice_eq_raise hcheck).1)

/-- The ceiling fits wherever the floor does, so there is no `ResultIsMax`; the difference is at most the price. -/
theorem sqrt1RemBody_eq_raise {p l amt : Nat} (hamt : amt < 2 ^ 256) (h : sqrt1RemBody p l amt = .raise e) :
    e = .error .divisionByZero ∨ e = .error .resultOverflow ∨ e = .error .priceUnderflow ∨
      (e = .error .priceOverflow ∧ Config.maxU160 < p) := by
  obtain hquot | ⟨v, -, hrest⟩ := andThen_eq_raise h
  · rw [token1QuotientUp_eq_mulDivRoundUp] at hquot
    obtain ⟨hzero, -⟩ | hover | ⟨-, hl, hfloor, hmax⟩ := mulDivRoundUp_eq_raise hquot
    · exact .inl hzero
    · exact .inr (.inl hover)
    · exact absurd hmax (ceilDiv_amount_shifted_lt hamt hl hfloor).ne
  · split at hrest
    · cases hrest
      exact .inr (.inr (.inl rfl))
    · exact .inr (.inr (.inr ((checkPrice_eq_raise hrest).imp_right fun hlt => hlt.trans_le (Nat.sub_le p v))))

/-! ### What the pseudocode of each stepper can raise (rules R131-R137) -/

variable {q : Request}

theorem opOf_sqrt0Add_eq_raise (h : opOf .sqrt0Add q = .raise e) :
    e = .error .divisionByZero ∨ (e = .error .priceOverflow ∧ Config.maxU160 < q.a.toNat) := by
  by_cases hc : q.c.toNat = 0
  · rw [opOf_sqrt0_of_zero_amount (.inl rfl) hc] at h
    exact .inr (checkPrice_eq_raise h)
  · have hn : lowHalf q.b * 2 ^ 96 < 2 ^ 256 := by
      have := lowHalf_lt q.b
      omega
    rw [opOf, nextSqrtPriceFromAmount0RoundingUp, if_neg hc, if_pos rfl] at h
    exact sqrt0AddBody_eq_raise q.a.isLt hn hc h

theorem opOf_sqrt0Rem_eq_raise (h : opOf .sqrt0Rem q = .raise e) :
    e = .error .productDivAmount ∨ e = .error .resultOverflow ∨ e = .error .resultIsMax ∨ e = .error .priceOverflow := by
  by_cases hc : q.c.toNat = 0
  · rw [opOf_sqrt0_of_zero_amount (.inr rfl) hc] at h
    exact .inr (.inr (.inr (checkPrice_eq_raise h).1))
  · rw [opOf, nextSqrtPriceFromAmount0RoundingUp, if_neg hc, if_neg Bool.false_ne_true] at h
    exact sqrt0RemBody_eq_raise h

theorem opOf_sqrt1Add_eq_raise (h : opOf .sqrt1Add q = .raise e) :
    e = .error .divisionByZero ∨ e = .error .resultOverflow ∨ e = .error .priceOverflow :=
  sqrt1AddBody_eq_raise h

theorem opOf_sqrt1Rem_eq_raise (h : opOf .sqrt1Rem q = .raise e) :
    e = .error .divisionByZero ∨ e = .error .resultOverflow ∨ e = .error .priceUnderflow ∨
      (e = .error .priceOverflow ∧ Config.maxU160 < q.a.toNat) :=
  sqrt1RemBody_eq_raise q.c.isLt h

end Raises

/-! ### The statuses of each command (rule R160) -/

theorem response_raise_status (e : Raise) (free : Word) : ((Answer.raise e).response free).status = e.status :=
  response_status _ _

/-- The response that a command adds is that of its answer. -/
theorem eq_response_of_exec {i : Instr} {s t : State} {q : InFlight} {rsp : Response} (hq : s.serving = some q)
    (hexec : exec i s = .next t) (hrsp : t.responses = s.responses ++ [{ who := q.who, rsp := rsp }]) :
    rsp = (answerTo i (opOf i) q.req).response (Config.freeResult s.draws) := by
  rw [exec_of_some hq] at hexec
  cases hexec
  rw [complete_responses, List.append_cancel_left_eq, List.singleton_inj, Addressed.mk.injEq] at hrsp
  exact hrsp.2.symm

/-- Settles O44: a command that is not `OK` failed its operand check, or its pseudocode raised one of its own statuses. -/
theorem eachCommandWritesOnlyItsStatuses : Obligations.EachCommandWritesOnlyItsStatuses := by
  intro s q hq i t rsp hexec hrsp
  obtain rfl := eq_response_of_exec hq hexec hrsp
  obtain ⟨-, he⟩ | ⟨hcheck, he⟩ := answerTo_cases i (opOf i) q.req <;> rw [he]
  · cases hop : opOf i q.req with
    | ret v => exact .inl rfl
    | raise e =>
      rw [response_raise_status]
      refine .inr ?_
      cases i with
      | msb => rw [mostSignificantBit_eq_raise hop]; rfl
      | lsb => rw [leastSignificantBit_eq_raise hop]; rfl
      | udivru => rw [unsafeDivRoundUp_eq_raise hop]; rfl
      | muldiv => obtain ⟨rfl, -⟩ | rfl := mulDiv_eq_raise hop <;> simp [Raise.status]
      | muldivru => obtain ⟨rfl, -⟩ | rfl | ⟨rfl, -⟩ := mulDivRoundUp_eq_raise hop <;> simp [Raise.status]
      | adddelta => obtain rfl | rfl := addDelta_eq_raise hop <;> simp [Raise.status]
      | sqrt0Rem => obtain rfl | rfl | rfl | rfl := opOf_sqrt0Rem_eq_raise hop <;> simp [Raise.status]
      | sqrt0Add =>
        obtain rfl | ⟨rfl, hprice⟩ := opOf_sqrt0Add_eq_raise hop
        · exact .inl rfl
        · exact .inr (.inl ⟨rfl, hprice⟩)
      | sqrt1Rem =>
        obtain rfl | rfl | rfl | ⟨rfl, hprice⟩ := opOf_sqrt1Rem_eq_raise hop
        · exact .inl rfl
        · exact .inr (.inl rfl)
        · exact .inr (.inr (.inl rfl))
        · exact .inr (.inr (.inr (.inl ⟨rfl, hprice⟩)))
      | sqrt1Add => obtain rfl | rfl | rfl := opOf_sqrt1Add_eq_raise hop <;> simp [Raise.status]
  · rw [checkOperands_eq_some_iff] at hcheck
    obtain ⟨rfl, -⟩ | ⟨rfl | rfl | rfl | rfl, -⟩ := hcheck <;> simp

/-! ### The result beside a status that is not `OK` (rule R163) -/

theorem conforms_iff (x : Response) : x.conforms = true ↔ (x.status ≠ .ok → x.status ≠ .fault .unsafeDivByZero → x.r = 0) := by
  simp only [Response.conforms, Bool.or_eq_true, beq_iff_eq, or_assoc]
  rw [or_iff_not_imp_left, or_iff_not_imp_left]

/-- Settles O45: every response conforms, and only `UnsafeDivByZero` draws the free value. -/
theorem nonOkResultIsZero : Obligations.NonOkResultIsZero := by
  intro s q hq
  refine ⟨_, _, step_of_some hq, rfl, (conforms_iff _).1 (response_conforms _ _), fun hst => ?_⟩
  have hanswer := (response_status_eq_unsafeDivByZero_iff _ _).1 hst
  rw [complete_draws, hanswer]
  exact ⟨rfl, rfl⟩

/-! ### Faults and obligations (rules R162, R183, R184) -/

theorem isFault_eq_false_iff (st : Status) : st.isFault = false ↔ ∀ f, st ≠ .fault f := by
  cases st <;> simp [Status.isFault]

/-- The response to a request is no fault exactly when the request is well-formed, whatever the free value. -/
theorem answerOf_isFault_eq_false_iff (q : Request) (free : Word) :
    ((answerOf q).response free).status.isFault = false ↔ q.wf = true := by
  rw [isFault_eq_false_iff]
  simp only [ne_eq, response_status_eq_fault_iff]
  refine ⟨fun hnone => ?_, answerOf_ne_fault_of_wf⟩
  by_contra hbroken
  obtain ⟨f, hf, -⟩ := answerOf_eq_fault_of_not_wf (Bool.eq_false_iff.2 hbroken)
  exact hnone f hf

/-- Settles O47: the step's response is that of `answerOf`. -/
theorem faultExactlyOnABrokenObligation : Obligations.FaultExactlyOnABrokenObligation := fun _ q hq =>
  ⟨_, _, step_of_some hq, rfl, answerOf_isFault_eq_false_iff q.req _⟩

/-! ### Taking a response (rules R162, R175, R187) -/

/-- A requester finds nothing, or its oldest response leaves the channel and is delivered. -/
theorem takeResponse_oldest (s : State) (w : Requester) :
    ((∀ d ∈ s.responses, d.who ≠ w) ∧ s.takeResponse w = .nothing) ∨
    ∃ (rsp : Response) (before after : List Addressed), s.responses = before ++ { who := w, rsp := rsp } :: after ∧
      (∀ d ∈ before, d.who ≠ w) ∧ s.takeResponse w = deliver rsp { s with responses := before ++ after } := by
  unfold State.takeResponse
  cases hfind : s.responses.find? (fun d => d.who == w) with
  | none => exact .inl ⟨by simpa using hfind, rfl⟩
  | some d =>
    obtain ⟨hd, before, after, hsplit, hbefore⟩ := List.find?_eq_some_iff_append.1 hfind
    obtain rfl : d.who = w := by simpa using hd
    have hothers : ∀ e ∈ before, e.who ≠ d.who := by simpa using hbefore
    have herase : s.responses.eraseP (fun e => e.who == d.who) = before ++ after := by
      rw [hsplit, List.eraseP_append_right _ (by simpa using hothers)]
      simp
    exact .inr ⟨d.rsp, before, after, hsplit, hothers, by rw [herase]⟩

theorem deliver_ne_nothing (rsp : Response) (t : State) : deliver rsp t ≠ .nothing := by
  obtain ⟨-, he⟩ | ⟨f, -, he⟩ := deliver_cases rsp t <;> rw [he] <;> rintro ⟨⟩

/-- Settles O53: what is found is delivered, and its status says as which of the two. -/
theorem takenResponseIsTheRequestersOldest : Obligations.TakenResponseIsTheRequestersOldest := by
  intro s w
  obtain ⟨hnone, he⟩ | ⟨rsp, before, after, hsplit, hothers, he⟩ := takeResponse_oldest s w <;> rw [he]
  · exact ⟨nofun, nofun, iff_of_true rfl hnone⟩
  · refine ⟨fun r t h => ?_, fun f t h => ?_, iff_of_false (deliver_ne_nothing _ _) fun hnone => ?_⟩
    · obtain ⟨hok, -⟩ | ⟨f, -, hfailed⟩ := deliver_cases rsp { s with responses := before ++ after }
      · obtain ⟨rfl, rfl⟩ := deliver_eq_response h
        exact ⟨hok, before, after, hsplit, hothers, rfl⟩
      · rw [hfailed] at h
        cases h
    · obtain ⟨hst, rfl⟩ := deliver_eq_failed h
      exact ⟨rsp.r, before, after, by rw [hsplit, ← hst], hothers, rfl⟩
    · exact hnone _ (by rw [hsplit]; exact List.mem_append_cons_self) rfl

/-! ### A step in a requester's run (rules R162, R175) -/

section HostStep
variable {w : Requester} {s t : State}

theorem hostStep_of_no_fault (h : step s = .next t) (hnone : faultGivenTo w s t = none) : hostStep w s = .next t := by
  simp only [hostStep, h, hnone]

theorem hostStep_of_fault {f : Fault} (h : step s = .next t) (hf : faultGivenTo w s t = some f) : hostStep w s = .fault f := by
  simp only [hostStep, h, hf]

/-- The fault that a requester is given is found among the responses added. -/
theorem faultGivenTo_of_added {added : List Addressed} (h : t.responses = s.responses ++ added) :
    faultGivenTo w s t = added.findSome? fun d => if d.who = w then d.rsp.status.fault? else none := by
  rw [faultGivenTo, h, List.drop_left]

theorem faultGivenTo_complete (v : Requester) (x : Answer) : faultGivenTo w s (s.complete v x) =
    if v = w then (x.response (Config.freeResult s.draws)).status.fault? else none := by
  rw [faultGivenTo_of_added (complete_responses s v x), List.findSome?_singleton]

/-- With these responses added the requester's run ends with the outcome: the unit's own next state where none is a fault to the requester,
and otherwise one of the faults that it is given. -/
def EndsAtFaultAmong (w : Requester) (added : List Addressed) (t : State) (o : Host.Outcome State Fault Refusal) : Prop :=
  (∀ d ∈ added, d.who = w → d.rsp.status.isFault = false) ∧ o = .next t ∨
    ∃ f : Fault, (∃ d ∈ added, d.who = w ∧ d.rsp.status = .fault f) ∧ o = .fault f

theorem hostStep_endsAtFaultAmong {added : List Addressed} (h : step s = .next t) (hadded : t.responses = s.responses ++ added) :
    EndsAtFaultAmong w added t (hostStep w s) := by
  cases hf : faultGivenTo w s t with
  | none =>
    refine .inl ⟨fun d hd hw => ?_, hostStep_of_no_fault h hf⟩
    rw [faultGivenTo_of_added hadded] at hf
    have hst := List.findSome?_eq_none_iff.1 hf d hd
    rwa [if_pos hw, fault?_eq_none_iff] at hst
  | some f =>
    refine .inr ⟨f, ?_, hostStep_of_fault h hf⟩
    rw [faultGivenTo_of_added hadded] at hf
    obtain ⟨d, hd, hst⟩ := List.exists_of_findSome?_eq_some hf
    rw [Option.ite_none_right_eq_some, fault?_eq_some_iff] at hst
    exact ⟨d, hd, hst⟩

end HostStep

/-- Settles O57: the step adds one response, and only a fault addressed to the requester makes `hostStep` differ from `step`. -/
theorem hostStepFailsOnItsOwnFault : Obligations.HostStepFailsOnItsOwnFault := by
  intro w s q hq
  have hstep := step_of_some hq
  have hgiven := faultGivenTo_complete (w := w) (s := s) q.who (answerOf q.req)
  refine ⟨?_, fun hsafe => (hostStep_of_no_fault hstep ?_).trans hstep.symm⟩
  · rintro rfl hbroken
    obtain ⟨f, hf, -⟩ := answerOf_eq_fault_of_not_wf hbroken
    have hst := (response_status_eq_fault_iff _ (Config.freeResult s.draws) f).2 hf
    rw [if_pos rfl, (fault?_eq_some_iff _ f).2 hst] at hgiven
    exact ⟨f, hostStep_of_fault hstep hgiven, _, _, hstep, by rw [complete_responses, ← hst]⟩
  · rw [hgiven, ite_eq_right_iff, fault?_eq_none_iff, answerOf_isFault_eq_false_iff]
    exact hsafe.resolve_left ∘ not_not.2

/-! ### A requester's run of any length (rule R162) -/

/-- A step goes on to a next state and takes no response away. -/
theorem step_adds_responses (s : State) : ∃ (t : State) (added : List Addressed), step s = .next t ∧ t.responses = s.responses ++ added := by
  cases hserving : s.serving with
  | some q => exact ⟨_, _, step_of_some hserving, complete_responses _ _ _⟩
  | none =>
    by_cases hi : s.inflight = []
    · exact ⟨s, [], step_of_idle hserving hi, (List.append_nil _).symm⟩
    · obtain ⟨_, q, _, -, -, hstep⟩ := step_answers_oldest hserving hi
      exact ⟨_, _, hstep, complete_responses _ _ _⟩

theorem hostCore_run_succ_of_next {w : Requester} {s t : State} (h : hostStep w s = .next t) (n : Nat) :
    Host.Core.run (hostCore w) (n + 1) s = Host.Core.run (hostCore w) n t := by
  have hstep : (hostCore w).step s = .next t := h
  simp only [Host.Core.run, hstep]

theorem hostCore_run_succ_of_fault {w : Requester} {s : State} {f : Fault} (h : hostStep w s = .fault f) (n : Nat) :
    Host.Core.run (hostCore w) (n + 1) s = .fault f := by
  have hstep : (hostCore w).step s = .fault f := h
  simp only [Host.Core.run, hstep]

/-- The unit's run adds responses, and the requester's run ends at a fault among them, by induction on the number of steps: a fault of the
first step ends it there, and otherwise the rest decides. -/
theorem run_endsAtFaultAmong (w : Requester) (n : Nat) (s : State) :
    ∃ (t : State) (added : List Addressed), Host.Core.run Sys2Proof.core n s = .next t ∧ t.responses = s.responses ++ added ∧
      EndsAtFaultAmong w added t (Host.Core.run (hostCore w) n s) := by
  induction n generalizing s with
  | zero => exact ⟨s, [], rfl, (List.append_nil _).symm, .inl ⟨nofun, rfl⟩⟩
  | succ n ih =>
    obtain ⟨u, first, hstep, hfirst⟩ := step_adds_responses s
    obtain ⟨t, rest, hrun, hrest, hends⟩ := ih u
    refine ⟨t, first ++ rest, (run_succ_of_step hstep n).trans hrun, by rw [hrest, hfirst, List.append_assoc], ?_⟩
    obtain ⟨hnone, hnext⟩ | ⟨f, ⟨d, hd, hgiven⟩, hfault⟩ := hostStep_endsAtFaultAmong (w := w) hstep hfirst
    · rw [hostCore_run_succ_of_next hnext]
      obtain ⟨hnone', ho⟩ | ⟨f, ⟨d, hd, hgiven⟩, ho⟩ := hends
      · exact .inl ⟨fun d hd => (List.mem_append.1 hd).elim (hnone d) (hnone' d), ho⟩
      · exact .inr ⟨f, ⟨d, List.mem_append_right _ hd, hgiven⟩, ho⟩
    · exact .inr ⟨f, ⟨d, List.mem_append_left _ hd, hgiven⟩, hostCore_run_succ_of_fault hfault n⟩

/-- Settles O58: the responses added are those behind the ones already given. -/
theorem hostRunFailsExactlyAtItsFault : Obligations.HostRunFailsExactlyAtItsFault := by
  intro w n s
  obtain ⟨t, added, hrun, hadded, hends⟩ := run_endsAtFaultAmong w n s
  have hdrop : t.responses.drop s.responses.length = added := by rw [hadded, List.drop_left]
  rw [← hdrop] at hends
  exact ⟨t, hrun, hends⟩

end Sys2Proof.Machine
